-- ==== Sys2Proof/Word.lean ====
section
/-! DEFINITION. The word types of the block: bytes, the generator's 7-bit values, byte sequences
(spec/00_scope.md R10, R11). -/

namespace Sys2Proof

/-- An unsigned 8-bit value; bit 7 is the most significant (R10). -/
abbrev Byte := BitVec 8

/-- An unsigned 7-bit value, the width of `LFSR` (R10, R21). -/
abbrev Bits7 := BitVec 7

/-- A finite sequence of bytes; the first byte is at index 0 (R11). -/
abbrev Bytes := List Byte

end Sys2Proof
end

