-- ==== Sys2Proof/Config.lean ====
section
/-! DEFINITION. The constants of the block (spec/00_scope.md R7) and its open parameters (R9). The parameters
are a record the operations take as an argument; the machine's own record is the constant `Config.params`,
which has no body, so that nothing can be proved of its value. -/

namespace Sys2Proof

namespace Config

/-- `VERSION_SUPPORTED` (R7). -/
abbrev versionSupported : BitVec 2 := 0
/-- `PACKET_MIN` and `PACKET_MAX` (R7; spec/30_encoding.md R82). -/
abbrev packetMin : Nat := 4
abbrev packetMax : Nat := 19
/-- `PAYLOAD_MIN` and `PAYLOAD_MAX` (R7). -/
abbrev payloadMin : Nat := 2
abbrev payloadMax : Nat := 17
/-- `OA_VALUES_MIN` and `OA_VALUES_MAX` (R7, R82). -/
abbrev oaValuesMin : Nat := 1
abbrev oaValuesMax : Nat := 16
/-- `CFG_KEY_MIN` and `CFG_KEY_MAX` (R7, R82). -/
abbrev cfgKeyMin : Nat := 0
abbrev cfgKeyMax : Nat := 17
/-- `CFG_VALUES_MIN` and `CFG_VALUES_MAX` (R7, R82). -/
abbrev cfgValuesMin : Nat := 0
abbrev cfgValuesMax : Nat := 16
/-- `CHANNELS` (R7). -/
abbrev channels : Nat := 256
/-- `COBS_RUN_MAX` (R7). -/
abbrev cobsRunMax : Nat := 254
/-- `CK_INIT` (R7). -/
abbrev ckInit : Byte := 0
/-- `LFSR_WIDTH` (R7). -/
abbrev lfsrWidth : Nat := 7
/-- `RAW_BUF_CAP` (R7). -/
abbrev rawBufCap : Nat := packetMax
/-- `FRAMED_PACKET_MAX` (R7). -/
abbrev framedPacketMax : Nat := packetMax + (packetMax + 253) / 254
/-- The least admissible `PARSE_BUF_CAP` (R9). -/
abbrev parseBufCapMin : Nat := packetMax
/-- The least admissible `LEN_MAX` (R9). -/
abbrev lenMaxMin : Nat := 255

end Config

/-- The eight admissible pairs of a shift direction and two taps (spec/41_prng.md R123): the constructor
names the direction and the two tap positions. -/
inductive TapChoice where
  | left60 | left62 | left63 | left65
  | right01 | right03 | right04 | right06
  deriving DecidableEq, Repr, Inhabited

/-- Which bit of a shift is emitted, `OUT` of R123. -/
inductive OutSelect where
  | fedBack | shiftedOut
  deriving DecidableEq, Repr, Inhabited

/-- `LFSR_ORDER` (spec/41_prng.md R125). -/
inductive BitOrder where
  | msbFirst | lsbFirst
  deriving DecidableEq, Repr, Inhabited

/-- The admissible values of `PARSE_EMPTY_STATUS` (spec/42_packet_parse.md R142). -/
inductive EmptyBufStatus where
  | packetTooShort | success
  deriving DecidableEq, Repr, Inhabited

/-- The admissible values of `ERR_DECODE_FAIL` and `ERR_ENCODE_FAIL` (spec/46_composites.md R212). -/
inductive WrapperCode where
  | invalidSize | unknown
  deriving DecidableEq, Repr, Inhabited

/-- The open parameters of R9. Every value of the record is admissible and every admissible choice is a value
of it: a constraint of R9 is built into the type of a field or into the accessor that reads it
(`lfsrLoad`, `parseBufCap`, `withinLenMax`). The last three fields are the model's own free values. -/
structure Params where
  /-- `CK_STEP`, any total function (spec/40_checksum.md R110). Log entry 3. -/
  ckStep : Byte → Byte → Byte
  /-- `DIR`, `TAP_A`, `TAP_B` of the single-bit step (R123). Log entry 4. -/
  lfsrTaps : TapChoice
  /-- `OUT` of the single-bit step (R123). Log entry 4. -/
  lfsrOut : OutSelect
  /-- `LFSR_ORDER` (R125). Log entry 5. -/
  lfsrOrder : BitOrder
  /-- `LFSR_LOAD` before the two constraints of R121 are put on it by `lfsrLoad`. Log entry 6. -/
  lfsrLoadRaw : Byte → Bits7
  /-- `LFSR_RESET` (spec/70_reset_and_hazards.md R260). Log entry 7. -/
  lfsrReset : Bits7
  /-- `COBS_ZERO_BEFORE_DELIM` (spec/44_cobs.md R183). Log entry 8. -/
  cobsZeroBeforeDelim : Bool
  /-- `PARSE_EMPTY_STATUS` (R142). Log entry 9. -/
  parseEmptyStatus : EmptyBufStatus
  /-- `PARSE_BUF_CAP` less 19 (spec/46_composites.md R211). Log entry 10. -/
  parseBufExtra : Nat
  /-- `ERR_DECODE_FAIL` (R212). Log entry 11. -/
  errDecodeFail : WrapperCode
  /-- `ERR_ENCODE_FAIL` (R215). Log entry 11. -/
  errEncodeFail : WrapperCode
  /-- `LEN_MAX` less 255, or none where lengths are unbounded (spec/20_memory.md R57). Log entry 12. -/
  lenMaxExtra : Option Nat
  /-- Free value: what CKSUM returns for an `absent` sequence, by seed. Log entry 13. -/
  ckAbsent : Byte → Byte
  /-- Free value: what COBS_ENC returns for an `absent` sequence, by capacity. Log entry 13. -/
  encAbsent : Nat → Bytes
  /-- Free value: what COBS_DEC returns for an `absent` sequence, by capacity. Log entry 13. -/
  decAbsent : Nat → Bytes
  deriving Inhabited

/-- The machine's own parameters: no body, no value that Lean could evaluate (R9: a claim holds for every
admissible value). DESIGN CHOICE of form; safe. Log entries 3 to 13. -/
opaque Config.params : Params

end Sys2Proof
end

