-- ==== Sys2Proof/Syntax.lean ====
section
/-! DEFINITION. The instructions: one constructor for each row of spec/opcode_table.json, with the operands of
spec/30_encoding.md R87 (format CMD), the fields of R71 (format HDR) and the code byte of R79 (format COBS). -/

namespace Sys2Proof

/-- The three formats of the opcode table. The same byte can be a row of each (log entries 1, 2). -/
inductive Format where
  /-- A command: an operation code and its operands (R87, R92). -/
  | cmd
  /-- The header byte that begins a buffer of raw packets (R71). -/
  | hdr
  /-- The code byte that begins a COBS frame (R79). -/
  | cobs
  deriving DecidableEq, Repr

/-- A buffer operand: `absent`, or present with a length 0 or more (R40, R87; decision D3). -/
abbrev Buffer := Option Bytes

/-- One constructor for each row of the opcode table, in the table's order. -/
inductive Instr where
  -- format CMD: the 15 operations of R87
  | cksum (bytes : Buffer) (seed : Byte)
  | prngInit (seed : Byte)
  | prngNext
  | parse (buf : Buffer) (chEn cfgEn : Bool)
  | buildOa (offset : Byte) (values : Buffer) (cap : Nat)
  | buildCfg (key values : Buffer) (cap : Nat)
  | cobsEnc (src : Buffer) (cap : Nat)
  | cobsDec (src : Buffer) (cap : Nat)
  | cobsParse (frame : Buffer) (chEn cfgEn : Bool)
  | cobsBuildOa (offset : Byte) (values : Buffer) (cap : Nat)
  | cobsBuildCfg (key values : Buffer) (cap : Nat)
  | randomize (buf : Buffer)
  | randCobsParse (frame : Buffer) (chEn cfgEn : Bool)
  | randCobsBuildOa (offset : Byte) (values : Buffer) (cap : Nat)
  | randCobsBuildCfg (key values : Buffer) (cap : Nat)
  -- format HDR: the 7 header byte patterns of R71 to R73
  | hdrOffsetArray (size : BitVec 4)
  | hdrChannelValuePairs (size : BitVec 4)
  | hdrConfig (size : BitVec 4)
  | hdrType3 (size : BitVec 4)
  | hdrVersion1 (ptype : BitVec 2) (size : BitVec 4)
  | hdrVersion2 (ptype : BitVec 2) (size : BitVec 4)
  | hdrVersion3 (ptype : BitVec 2) (size : BitVec 4)
  -- format COBS: the 3 code byte classes of R79
  | cobsCodeDelimiter
  | cobsCodeRun (code : Byte)
  | cobsCodeFullRun
  deriving DecidableEq, Repr

/-- The format of an instruction's row. -/
def Instr.format : Instr → Format
  | .cksum .. | .prngInit .. | .prngNext | .parse .. | .buildOa .. | .buildCfg .. | .cobsEnc ..
  | .cobsDec .. | .cobsParse .. | .cobsBuildOa .. | .cobsBuildCfg .. | .randomize ..
  | .randCobsParse .. | .randCobsBuildOa .. | .randCobsBuildCfg .. => .cmd
  | .hdrOffsetArray .. | .hdrChannelValuePairs .. | .hdrConfig .. | .hdrType3 .. | .hdrVersion1 ..
  | .hdrVersion2 .. | .hdrVersion3 .. => .hdr
  | .cobsCodeDelimiter | .cobsCodeRun .. | .cobsCodeFullRun => .cobs

end Sys2Proof
end

