-- ==== Sys2Proof/WellFormed.lean ====
section
/-! DEFINITION. Which instruction terms are instructions of the table: `Instr.wellFormed` checks the operand kinds
of spec/30_encoding.md R87 and the range of a run's code byte (R79); `Instr.fitsCommand` checks the limits of
the command bytes of R92 (one length byte, one capacity byte). -/

namespace Sys2Proof

/-- The operand kinds of R87: CKSUM, COBS_ENC and COBS_DEC take a present sequence (decision D27), and a run's
code byte is `0x01` to `0xFE` (R79). Every other operand is admissible at every value. -/
def Instr.wellFormed : Instr → Bool
  | .cksum bytes _ => bytes.isSome
  | .cobsEnc src _ => src.isSome
  | .cobsDec src _ => src.isSome
  | .cobsCodeRun code => code != 0x00 && code != 0xFF
  | .prngInit .. | .prngNext | .parse .. | .buildOa .. | .buildCfg .. | .cobsParse ..
  | .cobsBuildOa .. | .cobsBuildCfg .. | .randomize .. | .randCobsParse .. | .randCobsBuildOa ..
  | .randCobsBuildCfg .. => true
  | .hdrOffsetArray .. | .hdrChannelValuePairs .. | .hdrConfig .. | .hdrType3 .. | .hdrVersion1 ..
  | .hdrVersion2 .. | .hdrVersion3 .. => true
  | .cobsCodeDelimiter | .cobsCodeFullRun => true

/-- A buffer operand of a command has a length below 256 (R92). -/
def bufferFits : Buffer → Bool
  | none => true
  | some b => b.length < 256

/-- The limits of the command bytes of R92: lengths and capacities below 256. -/
def Instr.fitsCommand : Instr → Bool
  | .cksum b _ | .parse b _ _ | .cobsParse b _ _ | .randomize b | .randCobsParse b _ _ => bufferFits b
  | .buildOa _ b cap | .cobsEnc b cap | .cobsDec b cap | .cobsBuildOa _ b cap
  | .randCobsBuildOa _ b cap => bufferFits b && cap < 256
  | .buildCfg k v cap | .cobsBuildCfg k v cap | .randCobsBuildCfg k v cap =>
      bufferFits k && bufferFits v && cap < 256
  | .prngInit .. | .prngNext => true
  | .hdrOffsetArray .. | .hdrChannelValuePairs .. | .hdrConfig .. | .hdrType3 .. | .hdrVersion1 ..
  | .hdrVersion2 .. | .hdrVersion3 .. => true
  | .cobsCodeDelimiter | .cobsCodeRun .. | .cobsCodeFullRun => true

end Sys2Proof
end

