-- ==== Sys2Proof/Decode.lean ====
section
/-! DEFINITION. The decoder and, after it, the encoder: command bytes (spec/30_encoding.md R87, R92), header bytes
(R71 to R74) and COBS code bytes (R79). The decoder is total and rejects by name. -/

namespace Sys2Proof

/-- Why bytes are no instruction. The command bytes are the spec's own (R92), so each is a refusal of the model,
safe: nothing is proved of such bytes (log entry 20). -/
inductive DecodeError where
  /-- There are no bytes to read. -/
  | noBytes
  /-- An operation code that selects no operation: `0x00`, `0x10` to `0xFF` (R87, R88). -/
  | noSuchOperation (code : Byte)
  /-- The bytes end inside a command (R92 writes every operand out). -/
  | truncated
  /-- A presence byte other than `0x00` and `0x01` (R92). -/
  | badPresenceByte (value : Byte)
  /-- A Boolean byte other than `0x00` and `0x01` (R92). -/
  | badBooleanByte (value : Byte)
  deriving DecidableEq, Repr

/-! ### The header byte -/

/-- `version`, bits 7 to 6 (R71). -/
def hdrVersion (h : Byte) : BitVec 2 := h.extractLsb' 6 2

/-- `type`, bits 5 to 4 (R71). -/
def hdrType (h : Byte) : BitVec 2 := h.extractLsb' 4 2

/-- `size`, bits 3 to 0 (R71). -/
def hdrSize (h : Byte) : BitVec 4 := h.extractLsb' 0 4

/-- `header = version * 64 + type * 16 + size` (R71). -/
def mkHeader (version ptype : BitVec 2) (size : BitVec 4) : Byte :=
  BitVec.ofNat 8 (version.toNat * 64 + ptype.toNat * 16 + size.toNat)

/-- Which row of the table a header byte is (R72, R73). -/
def decodeHeader (h : Byte) : Instr :=
  match (hdrVersion h).toNat with
  | 0 =>
    match (hdrType h).toNat with
    | 0 => .hdrOffsetArray (hdrSize h)
    | 1 => .hdrChannelValuePairs (hdrSize h)
    | 2 => .hdrConfig (hdrSize h)
    | _ => .hdrType3 (hdrSize h)
  | 1 => .hdrVersion1 (hdrType h) (hdrSize h)
  | 2 => .hdrVersion2 (hdrType h) (hdrSize h)
  | _ => .hdrVersion3 (hdrType h) (hdrSize h)

/-- Which row of the table a COBS code byte is (R79). -/
def decodeCode (c : Byte) : Instr :=
  if c = 0x00 then .cobsCodeDelimiter else if c = 0xFF then .cobsCodeFullRun else .cobsCodeRun c

/-! ### Command bytes -/

/-- A scalar operand: one byte (R92). -/
def takeByte : Bytes → Except DecodeError (Byte × Bytes)
  | [] => .error .truncated
  | b :: rest => .ok (b, rest)

/-- A capacity: one byte, its value (R92). -/
def takeCap (bytes : Bytes) : Except DecodeError (Nat × Bytes) :=
  (takeByte bytes).map fun p => (p.1.toNat, p.2)

/-- A Boolean: `0x00` for F, `0x01` for T (R92). -/
def takeBool : Bytes → Except DecodeError (Bool × Bytes)
  | [] => .error .truncated
  | b :: rest =>
    if b = 0x00 then .ok (false, rest)
    else if b = 0x01 then .ok (true, rest)
    else .error (.badBooleanByte b)

/-- A buffer: a presence byte and, when present, a length byte and the bytes (R92). -/
def takeBuffer : Bytes → Except DecodeError (Buffer × Bytes)
  | [] => .error .truncated
  | p :: rest =>
    if p = 0x00 then .ok (none, rest)
    else if p = 0x01 then
      match rest with
      | [] => .error .truncated
      | n :: body =>
        if n.toNat ≤ body.length then .ok (some (body.take n.toNat), body.drop n.toNat)
        else .error .truncated
    else .error (.badPresenceByte p)

/-- Operands `buffer, ch_en, cfg_en` of a parse operation. -/
def takeParse (mk : Buffer → Bool → Bool → Instr) (bytes : Bytes) :
    Except DecodeError (Instr × Bytes) := do
  let (buf, bytes) ← takeBuffer bytes
  let (chEn, bytes) ← takeBool bytes
  let (cfgEn, bytes) ← takeBool bytes
  return (mk buf chEn cfgEn, bytes)

/-- Operands `offset, values, cap` of an OffsetArray build. -/
def takeBuildOa (mk : Byte → Buffer → Nat → Instr) (bytes : Bytes) :
    Except DecodeError (Instr × Bytes) := do
  let (offset, bytes) ← takeByte bytes
  let (values, bytes) ← takeBuffer bytes
  let (cap, bytes) ← takeCap bytes
  return (mk offset values cap, bytes)

/-- Operands `key, values, cap` of a Config build. -/
def takeBuildCfg (mk : Buffer → Buffer → Nat → Instr) (bytes : Bytes) :
    Except DecodeError (Instr × Bytes) := do
  let (key, bytes) ← takeBuffer bytes
  let (values, bytes) ← takeBuffer bytes
  let (cap, bytes) ← takeCap bytes
  return (mk key values cap, bytes)

/-- Operands `src, cap` of the framer. -/
def takeFramer (mk : Buffer → Nat → Instr) (bytes : Bytes) :
    Except DecodeError (Instr × Bytes) := do
  let (src, bytes) ← takeBuffer bytes
  let (cap, bytes) ← takeCap bytes
  return (mk src cap, bytes)

/-- The operands that follow an operation code, in the order of R87. -/
def decodeOperands (code : Byte) (bytes : Bytes) : Except DecodeError (Instr × Bytes) :=
  match code.toNat with
  | 0x01 => do
    let (buf, bytes) ← takeBuffer bytes
    let (seed, bytes) ← takeByte bytes
    return (.cksum buf seed, bytes)
  | 0x02 => do
    let (seed, bytes) ← takeByte bytes
    return (.prngInit seed, bytes)
  | 0x03 => .ok (.prngNext, bytes)
  | 0x04 => takeParse .parse bytes
  | 0x05 => takeBuildOa .buildOa bytes
  | 0x06 => takeBuildCfg .buildCfg bytes
  | 0x07 => takeFramer .cobsEnc bytes
  | 0x08 => takeFramer .cobsDec bytes
  | 0x09 => takeParse .cobsParse bytes
  | 0x0A => takeBuildOa .cobsBuildOa bytes
  | 0x0B => takeBuildCfg .cobsBuildCfg bytes
  | 0x0C => do
    let (buf, bytes) ← takeBuffer bytes
    return (.randomize buf, bytes)
  | 0x0D => takeParse .randCobsParse bytes
  | 0x0E => takeBuildOa .randCobsBuildOa bytes
  | 0x0F => takeBuildCfg .randCobsBuildCfg bytes
  | _ => .error (.noSuchOperation code)

/-- The instruction at the front of a byte sequence read in a format, and the bytes after it. A header or code
byte is an instruction of one byte: the bytes that follow are the rest of the buffer or frame that it begins, an operand
its meaning takes from the host (log entry 1). -/
def decode (f : Format) (bytes : Bytes) : Except DecodeError (Instr × Bytes) :=
  match bytes with
  | [] => .error .noBytes
  | b :: rest =>
    match f with
    | .cmd => decodeOperands b rest
    | .hdr => .ok (decodeHeader b, rest)
    | .cobs => .ok (decodeCode b, rest)

/-! ### The encoder -/

/-- A buffer operand's bytes (R92). -/
def bufferBytes : Buffer → Bytes
  | none => [0x00]
  | some b => 0x01 :: BitVec.ofNat 8 b.length :: b

/-- A Boolean's byte (R92). -/
def boolByte (b : Bool) : Byte := if b then 0x01 else 0x00

/-- A capacity's byte (R92). -/
def capByte (cap : Nat) : Byte := BitVec.ofNat 8 cap

/-- The bytes of an instruction (R71, R79, R87, R92). -/
def encode : Instr → Bytes
  | .cksum bytes seed => 0x01 :: bufferBytes bytes ++ [seed]
  | .prngInit seed => [0x02, seed]
  | .prngNext => [0x03]
  | .parse buf chEn cfgEn => 0x04 :: bufferBytes buf ++ [boolByte chEn, boolByte cfgEn]
  | .buildOa offset values cap => 0x05 :: offset :: bufferBytes values ++ [capByte cap]
  | .buildCfg key values cap => 0x06 :: bufferBytes key ++ bufferBytes values ++ [capByte cap]
  | .cobsEnc src cap => 0x07 :: bufferBytes src ++ [capByte cap]
  | .cobsDec src cap => 0x08 :: bufferBytes src ++ [capByte cap]
  | .cobsParse frame chEn cfgEn => 0x09 :: bufferBytes frame ++ [boolByte chEn, boolByte cfgEn]
  | .cobsBuildOa offset values cap => 0x0A :: offset :: bufferBytes values ++ [capByte cap]
  | .cobsBuildCfg key values cap => 0x0B :: bufferBytes key ++ bufferBytes values ++ [capByte cap]
  | .randomize buf => 0x0C :: bufferBytes buf
  | .randCobsParse frame chEn cfgEn => 0x0D :: bufferBytes frame ++ [boolByte chEn, boolByte cfgEn]
  | .randCobsBuildOa offset values cap => 0x0E :: offset :: bufferBytes values ++ [capByte cap]
  | .randCobsBuildCfg key values cap => 0x0F :: bufferBytes key ++ bufferBytes values ++ [capByte cap]
  | .hdrOffsetArray size => [mkHeader 0 0 size]
  | .hdrChannelValuePairs size => [mkHeader 0 1 size]
  | .hdrConfig size => [mkHeader 0 2 size]
  | .hdrType3 size => [mkHeader 0 3 size]
  | .hdrVersion1 ptype size => [mkHeader 1 ptype size]
  | .hdrVersion2 ptype size => [mkHeader 2 ptype size]
  | .hdrVersion3 ptype size => [mkHeader 3 ptype size]
  | .cobsCodeDelimiter => [0x00]
  | .cobsCodeRun code => [code]
  | .cobsCodeFullRun => [0xFF]

/-! ### Words of the opcode table -/

/-- The longest command: BUILD_CFG with two buffers of 255 bytes, `1 + 2 * (2 + 255) + 1` (R92). -/
def longestCommand : Nat := 516

/-- The format a table word is read in when nothing but its first byte is known: that of the matching row with
the most fixed bits. The rows that fix all eight bits are the 15 operation codes and the COBS codes `0x00` and
`0xFF`; every other byte is a header byte. DESIGN CHOICE, log entry 2. -/
def tableFormat (b : Byte) : Format :=
  if b = 0x00 ∨ b = 0xFF then .cobs else if b.toNat ≤ 0x0F then .cmd else .hdr

/-- How many bytes an instruction has behind its first, at most: a command's operands, a packet behind its header
(R74), a block behind its code byte (R79). -/
def tableTail (b : Byte) : Nat :=
  match tableFormat b with
  | .cmd => longestCommand - 1
  | .hdr => (hdrSize b).toNat + 3
  | .cobs => b.toNat - 1

/-- The bytes of a table word, the low byte first, and zeros after it as far as its instruction goes. -/
def wordBytes (nbits w : Nat) : Bytes :=
  let word := (List.range ((nbits + 7) / 8)).map fun k => BitVec.ofNat 8 (w / 2 ^ (8 * k))
  word ++ List.replicate (tableTail (word.headD 0)) 0

/-- The format of a table word, by its first byte. -/
def wordFormat (nbits w : Nat) : Format := tableFormat ((wordBytes nbits w).headD 0)

/-- The instruction the decoder reads from a word of the opcode table. -/
def decodeTableWord (nbits w : Nat) : Option Instr :=
  match decode (wordFormat nbits w) (wordBytes nbits w) with
  | .ok (i, _) => some i
  | .error _ => none

end Sys2Proof
end

