-- ==== Sys2Proof/Machine/State.lean ====
section
/-! DEFINITION. The state of the machine: the block's one register (spec/10_state.md R20) and, beside it, the host's
side of the interface (spec/20_memory.md R40). The working values of an operation are none of it (R26): they are
arguments of the functions that use them. INVENTORY.md lists every field with its rule and reset value. -/

namespace Sys2Proof.Machine

/-- The closed set of statuses (spec/30_encoding.md R85). -/
inductive Status where
  | none
  | unknown
  | nullPointer
  | bufferOverflow
  | packetTooShort
  /-- In the enumeration, and returned by no operation (spec/60_exceptions.md R246). -/
  | packetTooLong
  | unsupportedVersion
  | unsupportedFormat
  | invalidSize
  | invalidCrc
  deriving DecidableEq, Repr

/-- One callback invocation (R40). -/
inductive Event where
  | setChannel (channel value : Byte)
  | setConfig (key : Bytes) (keyLength : Byte) (values : Bytes) (valuesLength : Byte)
  deriving DecidableEq, Repr

/-- What an operation hands back (spec/30_encoding.md R87). -/
inductive Result where
  /-- No result: PRNG_INIT, and no operation yet. -/
  | none
  /-- `ck` of CKSUM. -/
  | checksum (ck : Byte)
  /-- `byte` of PRNG_NEXT. -/
  | byte (b : Byte)
  /-- `out` of COBS_ENC, COBS_DEC and RANDOMIZE. -/
  | bytes (out : Bytes)
  /-- `status` and the events of a parse operation. -/
  | parsed (status : Status) (events : List Event)
  /-- `status`, `size_out` and `out` of a build operation. -/
  | built (status : Status) (sizeOut : Nat) (out : Bytes)
  deriving DecidableEq, Repr

/-- No fault exists: the block has no trap, and an error is a status among the results
(spec/60_exceptions.md R230, R241). -/
inductive Fault where
  deriving DecidableEq, Repr

/-- What the model gives no meaning to. Each is safe: nothing is claimed past it. -/
inductive Refusal where
  /-- Raised by `exec` for an instruction that has no meaning yet; no arm does. Safe. -/
  | notModelled (mnemonic : String)
  /-- Raised by `step` when the bytes at hand are no instruction: nothing issued, an operation code that
  selects nothing, bytes that are no command of R92. Safe (log entries 19, 20, 27). -/
  | undecodable (reason : DecodeError)
  /-- Raised by an operation given a sequence longer than `LEN_MAX` (spec/20_memory.md R57). Safe (log entry 12). -/
  | longerThanLenMax
  deriving DecidableEq, Repr

/-- The state of the block: one register of 7 bits and nothing else (spec/10_state.md R20, R21). -/
structure Block where
  /-- `LFSR`. -/
  lfsr : Bits7
  deriving DecidableEq, Repr

/-- What the host issues: the bytes of commands (spec/30_encoding.md R92), or the buffer or frame of one operation with
its scalar operands beside it (spec/20_memory.md R40). Written by the host, taken by the block, never read again
(spec/10_state.md R25). -/
structure Issue where
  /-- The format the bytes are read in (log entry 1). -/
  format : Format
  /-- The bytes not taken yet. -/
  bytes : Bytes
  /-- `ch_en` and `cfg_en` of a buffer of packets. -/
  chEn : Bool
  cfgEn : Bool
  /-- `cap` of a frame. -/
  cap : Nat
  deriving DecidableEq, Repr

/-- Nothing issued. -/
def Issue.nothing : Issue := { format := .cmd, bytes := [], chEn := false, cfgEn := false, cap := 0 }

/-- The host's side of the interface (spec/20_memory.md R40; spec/10_state.md R28), no state of the block. It stands
beside the block because a step has no other argument or result (log entry 18). -/
structure HostSide where
  /-- What is issued and not yet taken. -/
  issued : Issue
  /-- The results of the latest operation. -/
  result : Result
  deriving DecidableEq, Repr

/-- The machine's state: the block, and the host's side beside it. -/
structure State extends Block, HostSide where
  deriving DecidableEq, Repr

/-- The machine right after reset: `LFSR` holds `LFSR_RESET` (spec/70_reset_and_hazards.md R260), nothing else is
block state (R261); the host has issued nothing and been handed nothing (log entries 7, 26). -/
def State.reset : State where
  lfsr := Config.params.lfsrReset
  issued := Issue.nothing
  result := .none

end Sys2Proof.Machine
end

