-- ==== Sys2Proof/Machine/Operands.lean ====
section
/-! DEFINITION. The operand forms: what a parameter record says of an operand's length, and the readings of the open
parameters that carry a constraint of spec/00_scope.md R9. -/

namespace Sys2Proof.Machine

/-- `PARSE_BUF_CAP`, at least 19 (spec/46_composites.md R211). -/
def parseBufCap (P : Params) : Nat := Config.parseBufCapMin + P.parseBufExtra

/-- The length does not exceed `LEN_MAX`, which is at least 255 (spec/20_memory.md R57). -/
def withinLenMax (P : Params) (s : Bytes) : Bool :=
  s.length ≤ Config.lenMaxMin ||
    match P.lenMaxExtra with
    | none => true
    | some extra => s.length ≤ Config.lenMaxMin + extra

/-- As `withinLenMax`, for an operand that may be `absent`. -/
def bufferWithinLenMax (P : Params) : Buffer → Bool
  | none => true
  | some s => withinLenMax P s

/-- `PARSE_EMPTY_STATUS` as a status (spec/42_packet_parse.md R142). -/
def emptyBufStatus (P : Params) : Status :=
  match P.parseEmptyStatus with
  | .packetTooShort => .packetTooShort
  | .success => .none

/-- A wrapper's failure code as a status (spec/46_composites.md R212). -/
def wrapperStatus : WrapperCode → Status
  | .invalidSize => .invalidSize
  | .unknown => .unknown

/-- The number of a status in the order of spec/30_encoding.md R85; nothing in the model uses it (log entry 24). -/
def statusNumber : Status → Nat
  | .none => 0
  | .unknown => 1
  | .nullPointer => 2
  | .bufferOverflow => 3
  | .packetTooShort => 4
  | .packetTooLong => 5
  | .unsupportedVersion => 6
  | .unsupportedFormat => 7
  | .invalidSize => 8
  | .invalidCrc => 9

end Sys2Proof.Machine
end

