-- ==== Sys2Proof/Machine/Ops.lean ====
section
/-! DEFINITION. The named operations over the state. An operation ends by delivering its results to the host
(spec/20_memory.md R46); an error is one of them: `deliver` is all there is in the place of an exception entry, and
there is nothing to return from (spec/60_exceptions.md R241, R242). -/

namespace Sys2Proof.Machine

/-- The operation ends: the host has its results. -/
def State.deliver (s : State) (r : Result) : State := { s with result := r }

/-- `LFSR <- v` (spec/00_scope.md section 6). -/
def State.setLfsr (s : State) (v : Bits7) : State := { s with lfsr := v }

/-- Command bytes are taken and `rest` is left. -/
def State.take (s : State) (rest : Bytes) : State := { s with issued := { s.issued with bytes := rest } }

/-- All that was issued is taken. -/
def State.takeAll (s : State) : State := { s with issued := Issue.nothing }

/-- The host issues. -/
def State.issue (s : State) (issued : Issue) : State := { s with issued := issued }

end Sys2Proof.Machine
end

