-- ==== Sys2Proof/Machine/Checksum.lean ====
section
/-! DEFINITION. The checksum primitive (spec/40_checksum.md): CKSUM. -/

namespace Sys2Proof.Machine

/-- `CK(s, seed)`: `CK_STEP` folded over `s` from index 0 (R111). -/
def ck (P : Params) (s : Bytes) (seed : Byte) : Byte := s.foldl P.ckStep seed

/-- The named property `CK_SENS` of a step function (R115): injective in each argument. A hypothesis, never assumed
by the model. -/
def CkSens (step : Byte → Byte → Byte) : Prop :=
  (∀ v b b', step v b = step v b' → b = b') ∧ (∀ b v v', step v b = step v' b → v = v')

/-- CKSUM (R112). An `absent` sequence is no operand of it (R87): the result is then a free value (log entry 13). -/
def execCksum (bytes : Buffer) (seed : Byte) (s : State) : Host.Outcome State Fault Refusal :=
  match bytes with
  | none => .next (s.deliver (.checksum (Config.params.ckAbsent seed)))
  | some b =>
    if withinLenMax Config.params b then .next (s.deliver (.checksum (ck Config.params b seed)))
    else .refused .longerThanLenMax

end Sys2Proof.Machine
end

