-- ==== Sys2Proof/Machine/Build.lean ====
section
/-! DEFINITION. The packet builder (spec/43_packet_build.md): BUILD_OA, BUILD_CFG. -/

namespace Sys2Proof.Machine

/-- What a build hands back: `status`, `size_out`, `out` (spec/30_encoding.md R87). -/
structure Built where
  status : Status
  sizeOut : Nat
  out : Bytes
  deriving DecidableEq, Repr

/-- Results of a build as results of an operation. -/
def builtResult (b : Built) : Result := .built b.status b.sizeOut b.out

/-- The common end of both builders (R160, R162): the capacity test, then header and payload with their checksum
appended. -/
def finishBuild (P : Params) (body : Bytes) (cap : Nat) : Built :=
  let need := body.length + 1
  if cap < need then { status := .bufferOverflow, sizeOut := need, out := [] }
  else { status := .none, sizeOut := need, out := body ++ [ck P body Config.ckInit] }

/-- BUILD_OA (R161). -/
def buildOa (P : Params) (offset : Byte) (values : Buffer) (cap : Nat) : Built :=
  match values with
  | none => { status := .nullPointer, sizeOut := cap, out := [] }
  | some values =>
    if values.length < Config.oaValuesMin ∨ values.length > Config.oaValuesMax then
      { status := .invalidSize, sizeOut := cap, out := [] }
    else finishBuild P (mkHeader 0 0 (BitVec.ofNat 4 (values.length - 1)) :: offset :: values) cap

/-- BUILD_CFG (R164). -/
def buildCfg (P : Params) (key values : Buffer) (cap : Nat) : Built :=
  match key, values with
  | some key, some values =>
    let ps := key.length + 1 + values.length
    if ps < Config.payloadMin ∨ ps > Config.payloadMax then
      { status := .invalidSize, sizeOut := cap, out := [] }
    else finishBuild P (mkHeader 0 2 (BitVec.ofNat 4 (ps - 2)) :: (key ++ 0x00 :: values)) cap
  | _, _ => { status := .nullPointer, sizeOut := cap, out := [] }

/-- BUILD_OA (R161). -/
def execBuildOa (offset : Byte) (values : Buffer) (cap : Nat) (s : State) :
    Host.Outcome State Fault Refusal :=
  .next (s.deliver (builtResult (buildOa Config.params offset values cap)))

/-- BUILD_CFG (R164). -/
def execBuildCfg (key values : Buffer) (cap : Nat) (s : State) :
    Host.Outcome State Fault Refusal :=
  .next (s.deliver (builtResult (buildCfg Config.params key values cap)))

end Sys2Proof.Machine
end

