-- ==== Sys2Proof/Machine/Cobs.lean ====
section
/-! DEFINITION. The COBS framer (spec/44_cobs.md): COBS_ENC, COBS_DEC, and the three code rows of the opcode table, each
the decoding of the frame it begins. -/

namespace Sys2Proof.Machine

/-- `ENC_MAX(n) = n + ceil(n / 254)` (spec/30_encoding.md R83). -/
def encMax (n : Nat) : Nat := n + (n + 253) / 254

/-- `DEC_MAX(n) = max(n - 1, 0)` (spec/30_encoding.md R84). -/
def decMax (n : Nat) : Nat := n - 1

/-! ### Encoder -/

/-- A code byte and the run it announces (R177). -/
def codedRun (run : Bytes) : Bytes := BitVec.ofNat 8 (run.length + 1) :: run

/-- The loop of R177 on the input left, `run` being the non-zero bytes since the last zero byte or full block. A
full run is closed only when more input follows (spec/90_conflicts.md C2). -/
def cobsEncodeLoop : Bytes → Bytes → Bytes
  | [], run => codedRun run
  | b :: rest, run =>
    if b = 0x00 then codedRun run ++ cobsEncodeLoop rest []
    else if run.length + 1 = Config.cobsRunMax ∧ rest ≠ [] then
      codedRun (run ++ [b]) ++ cobsEncodeLoop rest []
    else cobsEncodeLoop rest (run ++ [b])

/-- `COBS_ENC src, cap` (R176, R177). -/
def cobsEncode (src : Bytes) (cap : Nat) : Bytes :=
  if src = [] ∨ cap < encMax src.length then [] else cobsEncodeLoop src []

/-! ### Decoder -/

/-- One turn of the loop of R182 after a code byte is read: the bytes it writes, and, if the loop goes on, the rest
of the frame and whether a zero is owed. A short last block is copied as far as it goes (R184). -/
def cobsBlock (P : Params) (code : Byte) (tail : Bytes) (pend : Bool) :
    Bytes × Option (Bytes × Bool) :=
  if code = 0x00 then (if pend && P.cobsZeroBeforeDelim then [0x00] else [], none)
  else
    let k := code.toNat - 1
    ((if pend then [0x00] else []) ++ tail.take k,
      if (tail.drop k).isEmpty then none else some (tail.drop k, code != 0xFF))

/-- The loop of R182, `fuel` bounding its turns (each takes a byte or more). -/
def cobsDecodeLoop (P : Params) : Nat → Bytes → Bool → Bytes
  | 0, _, _ => []
  | _ + 1, [], _ => []
  | fuel + 1, code :: tail, pend =>
    (cobsBlock P code tail pend).1 ++
      match (cobsBlock P code tail pend).2 with
      | none => []
      | some (rest, pend') => cobsDecodeLoop P fuel rest pend'

/-- `COBS_DEC src, cap` (R181, R182). -/
def cobsDecode (P : Params) (src : Bytes) (cap : Nat) : Bytes :=
  if src = [] ∨ cap < decMax src.length then [] else cobsDecodeLoop P src.length src false

/-! ### The operations -/

/-- COBS_ENC (R177). An `absent` source is no operand of it (R87): the output is then a free value within the
capacity (log entry 13). -/
def execCobsEnc (src : Buffer) (cap : Nat) (s : State) : Host.Outcome State Fault Refusal :=
  match src with
  | none => .next (s.deliver (.bytes ((Config.params.encAbsent cap).take cap)))
  | some b =>
    if withinLenMax Config.params b then .next (s.deliver (.bytes (cobsEncode b cap)))
    else .refused .longerThanLenMax

/-- A whole decoding of a frame that `LEN_MAX` admits (R182; spec/20_memory.md R57). -/
def runDecode (src : Bytes) (cap : Nat) (s : State) : Host.Outcome State Fault Refusal :=
  if withinLenMax Config.params src then .next (s.deliver (.bytes (cobsDecode Config.params src cap)))
  else .refused .longerThanLenMax

/-- COBS_DEC (R182). An `absent` source as for COBS_ENC. -/
def execCobsDec (src : Buffer) (cap : Nat) (s : State) : Host.Outcome State Fault Refusal :=
  match src with
  | none => .next (s.deliver (.bytes ((Config.params.decAbsent cap).take cap)))
  | some b => runDecode b cap s

/-! ### The code rows -/

/-- The decoding of the frame that a code byte begins: the byte, and behind it what the host has issued, all of it taken
(R182; log entry 1). -/
def decodeIssued (code : Byte) (s : State) : Host.Outcome State Fault Refusal :=
  runDecode (code :: s.issued.bytes) s.issued.cap s.takeAll

/-- COBS_CODE_DELIMITER (R182, R183). -/
def execCobsCodeDelimiter (s : State) : Host.Outcome State Fault Refusal :=
  decodeIssued 0x00 s

/-- COBS_CODE_RUN (R182). -/
def execCobsCodeRun (code : Byte) (s : State) : Host.Outcome State Fault Refusal :=
  decodeIssued code s

/-- COBS_CODE_FULL_RUN (R182). -/
def execCobsCodeFullRun (s : State) : Host.Outcome State Fault Refusal :=
  decodeIssued 0xFF s

end Sys2Proof.Machine
end

