-- ==== Sys2Proof/Machine/Parse.lean ====
section
/-! DEFINITION. The packet parser (spec/42_packet_parse.md): PARSE, and the seven header rows of the opcode table, each
the parse of the buffer it begins. -/

namespace Sys2Proof.Machine

/-- `payloadSize = size + 2` (spec/30_encoding.md R74). -/
def payloadSize (h : Byte) : Nat := (hdrSize h).toNat + 2

/-- `packetLength = size + 4` (R74). -/
def packetLength (h : Byte) : Nat := (hdrSize h).toNat + 4

/-! ### Dispatch by payload type -/

/-- OffsetArray (R146): value `i` to channel `(offset + i) mod 256`, in ascending order. -/
def offsetArrayEvents : Bytes → List Event
  | [] => []
  | offset :: values =>
    values.mapIdx fun i v => .setChannel (BitVec.ofNat 8 (offset.toNat + i)) v

/-- ChannelValuePairs (R147): a trailing channel has the value 0. -/
def channelValueEvents : Bytes → List Event
  | [] => []
  | [channel] => [.setChannel channel 0]
  | channel :: value :: rest => .setChannel channel value :: channelValueEvents rest

/-- Config (R148, spec/30_encoding.md R77): the key is what stands before the first `0x00`, the values what stands
after it; without a `0x00` the key is the whole payload and there are no values. -/
def configEvents (payload : Bytes) : List Event :=
  let key := payload.takeWhile (· != 0x00)
  let values := payload.drop (key.length + 1)
  [.setConfig key (BitVec.ofNat 8 key.length) values (BitVec.ofNat 8 values.length)]

/-- The events of a packet's payload, or `none` for type 3 (R146 to R149, R151). -/
def payloadEvents (chEn cfgEn : Bool) (h : Byte) (payload : Bytes) : Option (List Event) :=
  match (hdrType h).toNat with
  | 0 => some (if chEn then offsetArrayEvents payload else [])
  | 1 => some (if chEn then channelValueEvents payload else [])
  | 2 => some (if cfgEn then configEvents payload else [])
  | _ => none

/-! ### One packet, and the loop -/

/-- What the tests of one packet come to. -/
inductive PacketVerdict where
  /-- A test fails: the call ends with this status (R142 to R145, R149). -/
  | fails (status : Status)
  /-- The packet is good: its events, and the buffer after it. -/
  | passes (events : List Event) (rest : Bytes)
  deriving DecidableEq, Repr

/-- One turn of the loop of R141 on the buffer from the packet's header on: the four tests in order, then the
dispatch. -/
def parsePacket (P : Params) (chEn cfgEn : Bool) (h : Byte) (tail : Bytes) : PacketVerdict :=
  let rem := tail.length + 1
  if rem < Config.packetMin then .fails .packetTooShort
  else if hdrVersion h ≠ Config.versionSupported then .fails .unsupportedVersion
  else if packetLength h > rem then .fails .invalidSize
  else
    let payload := tail.take (payloadSize h)
    if some (ck P (h :: payload) Config.ckInit) ≠ tail[payloadSize h]? then .fails .invalidCrc
    else
      match payloadEvents chEn cfgEn h payload with
      | none => .fails .unsupportedFormat
      | some events => .passes events (tail.drop (payloadSize h + 1))

/-- The packet loop of R141 on a buffer, `fuel` bounding its turns (each takes four bytes or more, so the length of
the buffer is enough); `acc` are the events emitted before. -/
def parseLoop (P : Params) (chEn cfgEn : Bool) : Nat → Bytes → List Event → Status × List Event
  | 0, _, acc => (.packetTooShort, acc)
  | _ + 1, [], acc => (.packetTooShort, acc)
  | fuel + 1, h :: tail, acc =>
    match parsePacket P chEn cfgEn h tail with
    | .fails status => (status, acc)
    | .passes events rest =>
      if rest.isEmpty then (.none, acc ++ events) else parseLoop P chEn cfgEn fuel rest (acc ++ events)

/-- `PARSE buf, ch_en, cfg_en` (R141): `absent` (R150), the present empty buffer (R142), the loop. -/
def parseBuffer (P : Params) (buf : Buffer) (chEn cfgEn : Bool) : Status × List Event :=
  match buf with
  | none => (.nullPointer, [])
  | some [] => (emptyBufStatus P, [])
  | some (h :: tail) => parseLoop P chEn cfgEn (tail.length + 1) (h :: tail) []

/-- A whole parse of a buffer that `LEN_MAX` admits (R141; spec/20_memory.md R57). -/
def runParse (buf : Buffer) (chEn cfgEn : Bool) (s : State) : Host.Outcome State Fault Refusal :=
  if bufferWithinLenMax Config.params buf then
    .next (s.deliver (.parsed (parseBuffer Config.params buf chEn cfgEn).1
      (parseBuffer Config.params buf chEn cfgEn).2))
  else .refused .longerThanLenMax

/-- PARSE (R141). -/
def execParse (buf : Buffer) (chEn cfgEn : Bool) (s : State) : Host.Outcome State Fault Refusal :=
  runParse buf chEn cfgEn s

/-! ### The header rows -/

/-- The parse of the buffer that a header byte begins: the byte, and behind it what the host has issued, all of it taken
(R141; log entry 1). -/
def parseIssued (h : Byte) (s : State) : Host.Outcome State Fault Refusal :=
  runParse (some (h :: s.issued.bytes)) s.issued.chEn s.issued.cfgEn s.takeAll

/-- HDR_OFFSET_ARRAY (R146). -/
def execHdrOffsetArray (size : BitVec 4) (s : State) : Host.Outcome State Fault Refusal :=
  parseIssued (mkHeader 0 0 size) s

/-- HDR_CHANNEL_VALUE_PAIRS (R147). -/
def execHdrChannelValuePairs (size : BitVec 4) (s : State) : Host.Outcome State Fault Refusal :=
  parseIssued (mkHeader 0 1 size) s

/-- HDR_CONFIG (R148). -/
def execHdrConfig (size : BitVec 4) (s : State) : Host.Outcome State Fault Refusal :=
  parseIssued (mkHeader 0 2 size) s

/-- HDR_TYPE3 (R149). -/
def execHdrType3 (size : BitVec 4) (s : State) : Host.Outcome State Fault Refusal :=
  parseIssued (mkHeader 0 3 size) s

/-- HDR_VERSION_1 (R143). -/
def execHdrVersion1 (ptype : BitVec 2) (size : BitVec 4) (s : State) : Host.Outcome State Fault Refusal :=
  parseIssued (mkHeader 1 ptype size) s

/-- HDR_VERSION_2 (R143). -/
def execHdrVersion2 (ptype : BitVec 2) (size : BitVec 4) (s : State) : Host.Outcome State Fault Refusal :=
  parseIssued (mkHeader 2 ptype size) s

/-- HDR_VERSION_3 (R143). -/
def execHdrVersion3 (ptype : BitVec 2) (size : BitVec 4) (s : State) : Host.Outcome State Fault Refusal :=
  parseIssued (mkHeader 3 ptype size) s

end Sys2Proof.Machine
end

