-- ==== Sys2Proof/Machine/Prng.lean ====
section
/-! DEFINITION. The pseudo-random sequence generator (spec/41_prng.md): PRNG_INIT, PRNG_NEXT. -/

namespace Sys2Proof.Machine

/-- `LFSR_LOAD` (R121): the parameter's function with its two constraints put on it, `LFSR_LOAD(0) = 1` and no
seed to 0. Every admissible function arises so (log entry 6). -/
def lfsrLoad (P : Params) (seed : Byte) : Bits7 :=
  if seed = 0 then 1 else if P.lfsrLoadRaw seed = 0 then 1 else P.lfsrLoadRaw seed

/-- Whether `DIR` is `left` (R123). -/
def tapLeft : TapChoice → Bool
  | .left60 | .left62 | .left63 | .left65 => true
  | .right01 | .right03 | .right04 | .right06 => false

/-- `TAP_A` (R123). -/
def tapA : TapChoice → Nat
  | .left60 | .left62 | .left63 | .left65 => 6
  | .right01 | .right03 | .right04 | .right06 => 0

/-- `TAP_B` (R123). -/
def tapB : TapChoice → Nat
  | .left60 => 0
  | .left62 => 2
  | .left63 => 3
  | .left65 => 5
  | .right01 => 1
  | .right03 => 3
  | .right04 => 4
  | .right06 => 6

/-- `LFSR_BIT` (R122, R123): the next state and the emitted bit. -/
def lfsrBit (P : Params) (r : Bits7) : Bits7 × Bool :=
  let fb := r.getLsbD (tapA P.lfsrTaps) ^^ r.getLsbD (tapB P.lfsrTaps)
  let fbBit := (BitVec.ofBool fb).setWidth 7
  let next := if tapLeft P.lfsrTaps then (r <<< 1) ||| fbBit else (r >>> 1) ||| (fbBit <<< 6)
  let shiftedOut := if tapLeft P.lfsrTaps then r.getLsbD 6 else r.getLsbD 0
  (next, match P.lfsrOut with | .fedBack => fb | .shiftedOut => shiftedOut)

/-- Where the `j`-th emitted bit of a call stands in the output byte (R125). -/
def bitPosition (order : BitOrder) (j : Nat) : Nat :=
  match order with
  | .msbFirst => 7 - j
  | .lsbFirst => j

/-- One turn of the loop of R126: shift once, put the emitted bit in its place. -/
def prngShift (P : Params) (acc : Byte × Bits7) (j : Nat) : Byte × Bits7 :=
  let (next, bit) := lfsrBit P acc.2
  (acc.1 ||| ((BitVec.ofBool bit).setWidth 8 <<< bitPosition P.lfsrOrder j), next)

/-- `PrngNext()` (R126): the byte, and the register after eight shifts. -/
def prngNext (P : Params) (r : Bits7) : Byte × Bits7 :=
  [0, 1, 2, 3, 4, 5, 6, 7].foldl (prngShift P) (0, r)

/-- The register after `n` calls of `PrngNext()`. -/
def prngState (P : Params) (r : Bits7) : Nat → Bits7
  | 0 => r
  | n + 1 => (prngNext P (prngState P r n)).2

/-- `K(seed, n)`: the `n`-th byte after seeding (R127). -/
def keystream (P : Params) (seed : Byte) (n : Nat) : Byte :=
  (prngNext P (prngState P (lfsrLoad P seed) n)).1

/-- PRNG_INIT (R124). -/
def execPrngInit (seed : Byte) (s : State) : Host.Outcome State Fault Refusal :=
  .next ((s.setLfsr (lfsrLoad Config.params seed)).deliver .none)

/-- PRNG_NEXT (R126). -/
def execPrngNext (s : State) : Host.Outcome State Fault Refusal :=
  .next ((s.setLfsr (prngNext Config.params s.lfsr).2).deliver
    (.byte (prngNext Config.params s.lfsr).1))

end Sys2Proof.Machine
end

