-- ==== Sys2Proof/Machine/Randomize.lean ====
section
/-! DEFINITION. The randomizer (spec/45_randomizer.md): RANDOMIZE. -/

namespace Sys2Proof.Machine

/-- Bytes XORed in ascending order with successive generator outputs, and the register after them (R201). -/
def maskBytes (P : Params) : Bytes → Bits7 → Bytes × Bits7
  | [], r => ([], r)
  | b :: rest, r =>
    let (k, r') := prngNext P r
    let (out, r'') := maskBytes P rest r'
    ((b ^^^ k) :: out, r'')

/-- `RANDOMIZE` of a present buffer (R201): the output and the register after it. Buffers below three bytes are a
no-op; otherwise the last byte seeds the generator and every byte strictly between the first and the last is masked. -/
def randomizeBytes (P : Params) (buf : Bytes) (r : Bits7) : Bytes × Bits7 :=
  match buf with
  | first :: second :: third :: tail =>
    let last := (third :: tail).getLast (List.cons_ne_nil third tail)
    let masked := maskBytes P ((second :: third :: tail).dropLast) (lfsrLoad P last)
    (first :: masked.1 ++ [last], masked.2)
  | _ => (buf, r)

/-- RANDOMIZE (R201); an `absent` buffer is a no-op with an empty result (R203). -/
def execRandomize (buf : Buffer) (s : State) : Host.Outcome State Fault Refusal :=
  match buf with
  | none => .next (s.deliver (.bytes []))
  | some b =>
    if withinLenMax Config.params b then
      .next ((s.setLfsr (randomizeBytes Config.params b s.lfsr).2).deliver
        (.bytes (randomizeBytes Config.params b s.lfsr).1))
    else .refused .longerThanLenMax

end Sys2Proof.Machine
end

