-- ==== Sys2Proof/Machine/Composite.lean ====
section
/-! DEFINITION. The composite operations (spec/46_composites.md): COBS_PARSE, COBS_BUILD_OA, COBS_BUILD_CFG,
RAND_COBS_PARSE, RAND_COBS_BUILD_OA, RAND_COBS_BUILD_CFG. Each is the composition the spec writes: a step that fails
ends the operation (R210). -/

namespace Sys2Proof.Machine

/-- Decode, then `middle` on what was decoded, then parse (R211, R217): status, events, register after. -/
def framedParse (P : Params) (middle : Bytes → Bits7 → Bytes × Bits7) (frame : Buffer)
    (chEn cfgEn : Bool) (r : Bits7) : (Status × List Event) × Bits7 :=
  match frame with
  | none => ((.nullPointer, []), r)
  | some f =>
    let raw := cobsDecode P f (parseBufCap P)
    if raw = [] then ((wrapperStatus P.errDecodeFail, []), r)
    else
      let clear := middle raw r
      (parseBuffer P (some clear.1) chEn cfgEn, clear.2)

/-- Build into the intermediate buffer, then `middle`, then encode (R214, R218): results, register after. `cap` is
the capacity of the destination of the frame and comes back as `size_out` on every error. -/
def framedBuild (P : Params) (middle : Bytes → Bits7 → Bytes × Bits7) (raw : Built) (cap : Nat)
    (r : Bits7) : Built × Bits7 :=
  if raw.status ≠ .none then ({ status := raw.status, sizeOut := cap, out := [] }, r)
  else
    let masked := middle raw.out r
    let frame := cobsEncode masked.1 cap
    if frame = [] then
      ({ status := wrapperStatus P.errEncodeFail, sizeOut := cap, out := [] }, masked.2)
    else ({ status := .none, sizeOut := frame.length, out := frame }, masked.2)

/-- The middle step of the plain composites: nothing. -/
def plainMiddle (raw : Bytes) (r : Bits7) : Bytes × Bits7 := (raw, r)

/-- The end of a parse composite: register written, results delivered. -/
def State.deliverParsed (s : State) (p : (Status × List Event) × Bits7) : State :=
  (s.setLfsr p.2).deliver (.parsed p.1.1 p.1.2)

/-- The end of a build composite: register written, results delivered. -/
def State.deliverBuilt (s : State) (p : Built × Bits7) : State :=
  (s.setLfsr p.2).deliver (builtResult p.1)

/-- COBS_PARSE (R211). -/
def execCobsParse (frame : Buffer) (chEn cfgEn : Bool) (s : State) :
    Host.Outcome State Fault Refusal :=
  if bufferWithinLenMax Config.params frame then
    .next (s.deliverParsed (framedParse Config.params plainMiddle frame chEn cfgEn s.lfsr))
  else .refused .longerThanLenMax

/-- COBS_BUILD_OA (R214). -/
def execCobsBuildOa (offset : Byte) (values : Buffer) (cap : Nat) (s : State) :
    Host.Outcome State Fault Refusal :=
  .next (s.deliverBuilt (framedBuild Config.params plainMiddle
    (buildOa Config.params offset values Config.rawBufCap) cap s.lfsr))

/-- COBS_BUILD_CFG (R214). -/
def execCobsBuildCfg (key values : Buffer) (cap : Nat) (s : State) :
    Host.Outcome State Fault Refusal :=
  .next (s.deliverBuilt (framedBuild Config.params plainMiddle
    (buildCfg Config.params key values Config.rawBufCap) cap s.lfsr))

/-- RAND_COBS_PARSE (R217). -/
def execRandCobsParse (frame : Buffer) (chEn cfgEn : Bool) (s : State) :
    Host.Outcome State Fault Refusal :=
  if bufferWithinLenMax Config.params frame then
    .next (s.deliverParsed
      (framedParse Config.params (randomizeBytes Config.params) frame chEn cfgEn s.lfsr))
  else .refused .longerThanLenMax

/-- RAND_COBS_BUILD_OA (R218). -/
def execRandCobsBuildOa (offset : Byte) (values : Buffer) (cap : Nat) (s : State) :
    Host.Outcome State Fault Refusal :=
  .next (s.deliverBuilt (framedBuild Config.params (randomizeBytes Config.params)
    (buildOa Config.params offset values Config.rawBufCap) cap s.lfsr))

/-- RAND_COBS_BUILD_CFG (R218). -/
def execRandCobsBuildCfg (key values : Buffer) (cap : Nat) (s : State) :
    Host.Outcome State Fault Refusal :=
  .next (s.deliverBuilt (framedBuild Config.params (randomizeBytes Config.params)
    (buildCfg Config.params key values Config.rawBufCap) cap s.lfsr))

end Sys2Proof.Machine
end

