-- ==== Sys2Proof/Machine/Dispatch.lean ====
section
/-! DEFINITION. exec: one arm for each constructor of `Instr`. -/

namespace Sys2Proof.Machine

def exec (i : Instr) (s : State) : Host.Outcome State Fault Refusal :=
  match i with
  | .cksum bytes seed => Sys2Proof.Machine.execCksum bytes seed s
  | .prngInit seed => Sys2Proof.Machine.execPrngInit seed s
  | .prngNext => Sys2Proof.Machine.execPrngNext s
  | .parse buf chEn cfgEn => Sys2Proof.Machine.execParse buf chEn cfgEn s
  | .buildOa offset values cap => Sys2Proof.Machine.execBuildOa offset values cap s
  | .buildCfg key values cap => Sys2Proof.Machine.execBuildCfg key values cap s
  | .cobsEnc src cap => Sys2Proof.Machine.execCobsEnc src cap s
  | .cobsDec src cap => Sys2Proof.Machine.execCobsDec src cap s
  | .cobsParse frame chEn cfgEn => Sys2Proof.Machine.execCobsParse frame chEn cfgEn s
  | .cobsBuildOa offset values cap => Sys2Proof.Machine.execCobsBuildOa offset values cap s
  | .cobsBuildCfg key values cap => Sys2Proof.Machine.execCobsBuildCfg key values cap s
  | .randomize buf => Sys2Proof.Machine.execRandomize buf s
  | .randCobsParse frame chEn cfgEn => Sys2Proof.Machine.execRandCobsParse frame chEn cfgEn s
  | .randCobsBuildOa offset values cap => Sys2Proof.Machine.execRandCobsBuildOa offset values cap s
  | .randCobsBuildCfg key values cap => Sys2Proof.Machine.execRandCobsBuildCfg key values cap s
  | .hdrOffsetArray size => Sys2Proof.Machine.execHdrOffsetArray size s
  | .hdrChannelValuePairs size => Sys2Proof.Machine.execHdrChannelValuePairs size s
  | .hdrConfig size => Sys2Proof.Machine.execHdrConfig size s
  | .hdrType3 size => Sys2Proof.Machine.execHdrType3 size s
  | .hdrVersion1 ptype size => Sys2Proof.Machine.execHdrVersion1 ptype size s
  | .hdrVersion2 ptype size => Sys2Proof.Machine.execHdrVersion2 ptype size s
  | .hdrVersion3 ptype size => Sys2Proof.Machine.execHdrVersion3 ptype size s
  | .cobsCodeDelimiter => Sys2Proof.Machine.execCobsCodeDelimiter s
  | .cobsCodeRun code => Sys2Proof.Machine.execCobsCodeRun code s
  | .cobsCodeFullRun => Sys2Proof.Machine.execCobsCodeFullRun s

end Sys2Proof.Machine
end

