-- ==== Sys2Proof/Machine/Fetch.lean ====
section
/-! DEFINITION. Taking the next instruction from what the host has issued (spec/20_memory.md R52; log entries 1, 19). -/

namespace Sys2Proof.Machine

/-- The next instruction and the state its meaning starts from, its own bytes taken, or why there is none. -/
def fetch (s : State) : Except DecodeError (Instr × State) :=
  match decode s.issued.format s.issued.bytes with
  | .ok (i, rest) => .ok (i, s.take rest)
  | .error reason => .error reason

/-- A word of the opcode table as the host issues it: with both sinks wanted, and the largest capacity a command can
name (log entry 2). -/
def issueOfWord (nbits w : Nat) : Issue :=
  { format := wordFormat nbits w, bytes := wordBytes nbits w, chEn := true, cfgEn := true, cap := 255 }

end Sys2Proof.Machine
end

