-- ==== Sys2Proof/Machine/Step.lean ====
section
/-! DEFINITION. One step: one whole operation (spec/00_scope.md R12). -/

namespace Sys2Proof.Machine

/-- One step of the machine. -/
def step (s : State) : Host.Outcome State Fault Refusal :=
  match fetch s with
  | .ok (i, s') => exec i s'
  | .error reason => .refused (.undecodable reason)

/-- A word of the opcode table issued, so that the next step takes it. -/
def State.withFetchWord (s : State) (nbits w : Nat) : State :=
  s.issue (issueOfWord nbits w)

end Sys2Proof.Machine
end

