-- ==== Sys2Proof/Safety.lean ====
section
/-! DEFINITION. What claims say of a run: operands the model gives a meaning to, results of the shape the spec gives
them, a generator that has been seeded. -/

namespace Sys2Proof.Machine

/-- Every sequence that `LEN_MAX` bounds is within it (spec/20_memory.md R57); of a header or code row's buffer, the row's
byte and what is issued behind it, only the length counts. The builders bound their operands themselves
(spec/43_packet_build.md R161, R164). -/
def instrWithinLenMax (P : Params) (i : Instr) (s : State) : Bool :=
  match i with
  | .cksum b _ | .parse b _ _ | .cobsEnc b _ | .cobsDec b _ | .cobsParse b _ _ | .randomize b
  | .randCobsParse b _ _ => bufferWithinLenMax P b
  | .prngInit .. | .prngNext | .buildOa .. | .buildCfg .. | .cobsBuildOa .. | .cobsBuildCfg ..
  | .randCobsBuildOa .. | .randCobsBuildCfg .. => true
  | .hdrOffsetArray .. | .hdrChannelValuePairs .. | .hdrConfig .. | .hdrType3 .. | .hdrVersion1 ..
  | .hdrVersion2 .. | .hdrVersion3 .. | .cobsCodeDelimiter | .cobsCodeRun .. | .cobsCodeFullRun =>
      withinLenMax P (0x00 :: s.issued.bytes)

/-- `LFSR` holds a valid generator state (spec/10_state.md R21). -/
def State.seeded (s : State) : Bool := s.lfsr != 0

/-- An event's lengths are those of its sequences (spec/20_memory.md R40), within the ranges of
spec/30_encoding.md R77. -/
def eventOk : Event → Bool
  | .setChannel .. => true
  | .setConfig key keyLength values valuesLength =>
      key.length == keyLength.toNat && values.length == valuesLength.toNat &&
        key.length ≤ Config.cfgKeyMax && values.length ≤ Config.cfgValuesMax

/-- The statuses a parse operation can return (spec/60_exceptions.md R232). -/
def parseStatuses : List Status :=
  [.none, .nullPointer, .packetTooShort, .unsupportedVersion, .invalidSize, .invalidCrc,
    .unsupportedFormat]

/-- The statuses a packet build can return (R232). -/
def buildStatuses : List Status := [.none, .nullPointer, .invalidSize, .bufferOverflow]

/-- Results of the shape the spec gives them: a parse returns a status of R232 and well-formed events; a build
returns a status of R232, an output of `size_out` bytes, 4 to 20, on success, and no output on an error
(spec/60_exceptions.md R237). -/
def resultOk : Result → Bool
  | .none | .checksum .. | .byte .. | .bytes .. => true
  | .parsed status events =>
      (parseStatuses.contains status || status == .unknown) && events.all eventOk
  | .built status sizeOut out =>
      (buildStatuses.contains status || status == .unknown) &&
        if status == .none then
          out.length == sizeOut && Config.packetMin ≤ sizeOut && sizeOut ≤ Config.framedPacketMax
        else out.isEmpty

/-- The invariant of every run: the results delivered have the spec's shape. -/
def State.resultsOk (s : State) : Bool := resultOk s.result

/-- A raw packet: header, payload, checksum of the two (spec/30_encoding.md R70, R78). -/
def rawPacket (P : Params) (h : Byte) (payload : Bytes) : Bytes :=
  h :: payload ++ [(h :: payload).foldl P.ckStep 0]

/-- Value `i` set on channel `(offset + i) mod 256` (spec/30_encoding.md R75). -/
def setChannels (offset : Byte) (values : Bytes) : List Event :=
  values.mapIdx fun i v => .setChannel (BitVec.ofNat 8 ((offset.toNat + i) % 256)) v

/-- Whether the sink of an event is enabled (spec/42_packet_parse.md R151). -/
def sinkEnabled (chEn cfgEn : Bool) : Event → Bool
  | .setChannel .. => chEn
  | .setConfig .. => cfgEn

/-- The status among an operation's results, where it has one (spec/30_encoding.md R87). -/
def resultStatus : Result → Option Status
  | .parsed status _ => some status
  | .built status _ _ => some status
  | .none | .checksum .. | .byte .. | .bytes .. => none

/-- The register after `n` single-bit steps (spec/41_prng.md R122). -/
def lfsrSteps (P : Params) (r : Bits7) : Nat → Bits7
  | 0 => r
  | n + 1 => (lfsrBit P (lfsrSteps P r n)).1

/-- A run of instructions one after another in which only PRNG_NEXT changes `LFSR` (spec/41_prng.md R127). -/
def runKeepsStream : List Instr → State → State → Prop
  | [], s, t => t = s
  | i :: rest, s, t =>
      ∃ u, exec i s = .next u ∧ (i = .prngNext ∨ u.lfsr = s.lfsr) ∧ runKeepsStream rest u t

/-- No packets, or packets that all pass, and the events they give (spec/42_packet_parse.md R140). -/
def goodPackets (chEn cfgEn : Bool) (front : Bytes) (events : List Event) : Prop :=
  (front = [] ∧ events = []) ∨
    (front ≠ [] ∧ parseBuffer Config.params (some front) chEn cfgEn = (.none, events))

/-- The buffer that a header row begins, its byte and what is issued behind it, ends a parse with a status: alone with
no event, and behind good packets with the events of these (spec/42_packet_parse.md R152). -/
def endsParse (front : Bytes) (events : List Event) (s : State) (i : Instr) (status : Status) : Prop :=
  withinLenMax Config.params (front ++ encode i ++ s.issued.bytes) →
    exec i s = .next { s with issued := Issue.nothing, result := .parsed status [] } ∧
    exec (.parse (some (front ++ encode i ++ s.issued.bytes)) s.issued.chEn s.issued.cfgEn) s
      = .next { s with result := .parsed status events }

/-- The header byte of an OffsetArray packet of `n` values (spec/43_packet_build.md R161). -/
def oaHeader (n : Nat) : Byte := BitVec.ofNat 8 (n - 1)

/-- The header byte of a Config packet with a payload of `n` bytes (spec/43_packet_build.md R164). -/
def cfgHeader (n : Nat) : Byte := 0x20 ||| BitVec.ofNat 8 (n - 2)

end Sys2Proof.Machine
end

