-- ==== Sys2Proof/Certificates/Slice0/Obligations.lean ====
section
/-! DEFINITION. The statements put to the provers. `Config.params` has no body, so a statement about `exec` holds for
whatever values the open parameters of spec/00_scope.md R9 have; a statement that needs a property of a parameter
quantifies over the parameters and takes the property as a hypothesis. -/

open Sys2Proof Sys2Proof.Machine

/-! ### Encoding and the step -/

/-- Decoding the bytes of an instruction gives it back, whatever follows (R71, R79, R87, R92). -/
def Obligations.DecodeEncodeAgree : Prop :=
  ∀ (i : Instr) (rest : Bytes), i.wellFormed → i.fitsCommand →
    decode i.format (encode i ++ rest) = .ok (i, rest)

/-- Bytes have one reading in each format: what decodes is the encoding of what was read, then the rest. -/
def Obligations.EncodeOfDecodedIsInput : Prop :=
  ∀ (f : Format) (bytes rest : Bytes) (i : Instr), decode f bytes = .ok (i, rest) →
    encode i ++ rest = bytes ∧ i.format = f ∧ i.fitsCommand

/-- The command bytes written out in R92 and in the programs of spec/95_test_vectors.md section 3. -/
def Obligations.WorkedCommandBytesDecode : Prop :=
  decode .cmd [0x05, 0x00, 0x01, 0x01, 0x2A, 0x13] = .ok (.buildOa 0x00 (some [0x2A]) 19, []) ∧
  decode .cmd [0x04, 0x01, 0x04, 0x00, 0x00, 0x2A, 0xD6, 0x01, 0x01]
    = .ok (.parse (some [0x00, 0x00, 0x2A, 0xD6]) true true, []) ∧
  decode .cmd [0x0F, 0x01, 0x04, 0x42, 0x61, 0x73, 0x65, 0x01, 0x01, 0x10, 0x14]
    = .ok (.randCobsBuildCfg (some [0x42, 0x61, 0x73, 0x65]) (some [0x10]) 20, []) ∧
  decode .cmd [0x02, 0xD6] = .ok (.prngInit 0xD6, []) ∧
  decode .hdr [0x24] = .ok (.hdrConfig 4, []) ∧
  decode .cobs [0xFF] = .ok (.cobsCodeFullRun, [])

/-- Operation codes `0x00` and `0x10` to `0xFF` select no operation (R87, R88), and a step on one refuses. -/
def Obligations.UnassignedOperationCodesAreRefused : Prop :=
  ∀ (code : Byte) (rest : Bytes) (s : State), (code = 0x00 ∨ 0x10 ≤ code.toNat) → s.issued.format = .cmd →
    s.issued.bytes = code :: rest → step s = .refused (.undecodable (.noSuchOperation code))

/-- The header's fields as numbers and back (R71). -/
def Obligations.HeaderFieldsAreTheHeadersBits : Prop :=
  (∀ h : Byte, (hdrVersion h).toNat = h.toNat / 64 ∧ (hdrType h).toNat = h.toNat / 16 % 4 ∧
    (hdrSize h).toNat = h.toNat % 16 ∧ mkHeader (hdrVersion h) (hdrType h) (hdrSize h) = h) ∧
  ∀ (v t : BitVec 2) (z : BitVec 4), (mkHeader v t z).toNat = v.toNat * 64 + t.toNat * 16 + z.toNat

/-- A step at bytes that decode is `exec` of the instruction, its bytes taken. -/
def Obligations.StepRunsDecodedInstruction : Prop :=
  ∀ (s : State) (i : Instr) (rest : Bytes), decode s.issued.format s.issued.bytes = .ok (i, rest) →
    step s = exec i { s with issued := { s.issued with bytes := rest } }

/-! ### Frames and independence -/

/-- An operation touches nothing but `LFSR` and the results: what is issued behind it stands (R20, R26: its working
values are gone with it). -/
def Obligations.OperationsChangeOnlyLfsrAndResult : Prop :=
  ∀ (i : Instr) (s t : State), i.format = .cmd → exec i s = .next t →
    ∃ v r, t = { s with lfsr := v, result := r }

/-- A header row touches nothing but the results of a parse, a code row nothing but the output of a decoding (R141, R182:
state written, none); each takes the whole buffer issued with it (log entry 1). -/
def Obligations.HeaderAndCodeRowsWriteOnlyResults : Prop :=
  ∀ (i : Instr) (s t : State), exec i s = .next t →
    (i.format = .hdr → ∃ st events, t = { s with issued := Issue.nothing, result := .parsed st events }) ∧
    (i.format = .cobs → ∃ out, t = { s with issued := Issue.nothing, result := .bytes out })

/-- Which operations leave `LFSR` unchanged, whatever their status, and when (R30, R239). -/
def Obligations.LfsrIsWrittenOnlyWhereTheTableSays : Prop :=
  ∀ (i : Instr) (s t : State), exec i s = .next t → t.lfsr ≠ s.lfsr →
    (∃ seed, i = .prngInit seed) ∨ i = .prngNext ∨
    (∃ buf, i = .randomize (some buf) ∧ 3 ≤ buf.length) ∨
    (∃ frame chEn cfgEn, i = .randCobsParse (some frame) chEn cfgEn ∧
      3 ≤ (cobsDecode Config.params frame (parseBufCap Config.params)).length) ∨
    (∃ offset values cap, i = .randCobsBuildOa offset (some values) cap ∧
      1 ≤ values.length ∧ values.length ≤ 16) ∨
    ∃ key values cap, i = .randCobsBuildCfg (some key) (some values) cap ∧
      2 ≤ key.length + 1 + values.length ∧ key.length + 1 + values.length ≤ 17

/-- Only PRNG_NEXT's results depend on the value `LFSR` had (R30, R47); a row's operands are what is issued with it (log
entry 1). -/
def Obligations.OnlyPrngNextReadsLfsr : Prop :=
  ∀ (i : Instr) (s₁ s₂ t₁ t₂ : State), i ≠ .prngNext → (i.format = .cmd ∨ s₁.issued = s₂.issued) →
    exec i s₁ = .next t₁ → exec i s₂ = .next t₂ → t₁.result = t₂.result

/-- No instruction's results, and no value of `LFSR` after it, depend on anything but its operands and `LFSR` (R20); a
row's operands are what is issued with it (log entry 1). -/
def Obligations.OperationsDependOnlyOnLfsr : Prop :=
  ∀ (i : Instr) (s₁ s₂ t₁ : State), (i.format = .cmd ∨ s₁.issued = s₂.issued) → s₁.lfsr = s₂.lfsr →
    exec i s₁ = .next t₁ → ∃ t₂, exec i s₂ = .next t₂ ∧ t₂.result = t₁.result ∧ t₂.lfsr = t₁.lfsr

/-- Every instruction whose sequences are within `LEN_MAX` runs to a next state; no instruction faults (R12, R230). That
CKSUM, COBS_ENC and COBS_DEC run on an absent sequence is the model's choice (log entry 13), and so is what a header or
code row takes as its operands (log entry 1). -/
def Obligations.EveryInstructionCompletes : Prop :=
  ∀ (i : Instr) (s : State), instrWithinLenMax Config.params i s →
    ∃ t, exec i s = .next t ∧ t.issued = if i.format = .cmd then s.issued else Issue.nothing

/-- An instruction refuses exactly when a sequence that `LEN_MAX` bounds is longer, and by that name (R57; log
entry 12). -/
def Obligations.OnlyLongSequencesAreRefused : Prop :=
  ∀ (i : Instr) (s : State) (r : Refusal), exec i s = .refused r ↔
    r = .longerThanLenMax ∧ instrWithinLenMax Config.params i s = false

/-! ### Invariants -/

/-- A non-zero `LFSR` stays non-zero over every step (R21). -/
def Obligations.StepKeepsLfsrNonzero : Prop :=
  ∀ s t : State, s.seeded → step s = .next t → t.seeded

/-- Every step keeps the results in the spec's shape (R40, R77, R165, R232, R237). -/
def Obligations.StepKeepsResultsOk : Prop :=
  ∀ s t : State, s.resultsOk → step s = .next t → t.resultsOk

/-- The shape invariant holds at reset. The fields it reads are the host's side, whose values at reset are the model's
choice (log entry 26). -/
def Obligations.ResetResultsOk : Prop := State.reset.resultsOk

/-- Reset: `LFSR` holds the open parameter `LFSR_RESET` (R260). The host-side fields are the model's choice (log
entry 26), and so is the refusal of a step with nothing issued (log entry 19). -/
def Obligations.ResetHoldsLfsrReset : Prop :=
  State.reset.lfsr = Config.params.lfsrReset ∧ State.reset.issued = Issue.nothing ∧
    State.reset.result = .none ∧
    step State.reset = .refused (.undecodable .noBytes)

/-- The statuses each operation can return, and no others (R232). -/
def Obligations.OperationsReturnOnlyTheirStatuses : Prop :=
  ∀ (i : Instr) (s t : State) (st : Status), exec i s = .next t → resultStatus t.result = some st →
    match i with
    | .parse .. => st ∈ parseStatuses
    | .hdrOffsetArray .. | .hdrChannelValuePairs .. | .hdrConfig .. | .hdrType3 .. | .hdrVersion1 ..
    | .hdrVersion2 .. | .hdrVersion3 .. => st ∈ parseStatuses ∧ st ≠ .nullPointer
    | .buildOa .. | .buildCfg .. => st ∈ buildStatuses
    | .cobsParse .. | .randCobsParse .. =>
        st ∈ parseStatuses ∨ st = wrapperStatus Config.params.errDecodeFail
    | .cobsBuildOa .. | .cobsBuildCfg .. | .randCobsBuildOa .. | .randCobsBuildCfg .. =>
        st ∈ [.none, .nullPointer, .invalidSize] ∨ st = wrapperStatus Config.params.errEncodeFail
    | _ => False

/-! ### Checksum -/

/-- CKSUM's result and frame (R111, R112). -/
def Obligations.CksumFoldsStepOverBytes : Prop :=
  ∀ (bytes : Bytes) (seed : Byte) (s : State), withinLenMax Config.params bytes →
    exec (.cksum (some bytes) seed) s
      = .next { s with result := .checksum (bytes.foldl Config.params.ckStep seed) }

/-- The streaming law, and its converse: the law forces the fold form on every non-empty range (R113). -/
def Obligations.ChecksumStreams : Prop :=
  (∀ (P : Params) (a b : Bytes) (seed : Byte), ck P (a ++ b) seed = ck P b (ck P a seed)) ∧
  (∀ f : Bytes → Byte → Byte, (∀ a b seed, f (a ++ b) seed = f b (f a seed)) →
    ∀ (s : Bytes) (seed : Byte), s ≠ [] → f s seed = s.foldl (fun v b => f [b] v) seed)

/-- Under `CK_SENS`, sequences of equal length that differ in exactly one byte have different checksums (R115). -/
def Obligations.SensitiveChecksumSeesOneByte : Prop :=
  ∀ (P : Params) (front back : Bytes) (b b' seed : Byte), CkSens P.ckStep → b ≠ b' →
    ck P (front ++ b :: back) seed ≠ ck P (front ++ b' :: back) seed

/-- Damage to a valid single packet: a changed payload or checksum byte, or a changed type field, gives INVALID_CRC
under `CK_SENS`; a version other than 0 gives UNSUPPORTED_VERSION; a larger size field gives INVALID_SIZE (R153). -/
def Obligations.DamagedPacketStatus : Prop :=
  ∀ (P : Params) (h h' c : Byte) (payload payload' : Bytes) (chEn cfgEn : Bool),
    hdrVersion h = 0 → payload.length = payloadSize h → payload'.length = payload.length →
    c = ck P (h :: payload) 0 →
    (CkSens P.ckStep →
      (∀ k b, k < payload.length → payload[k]? ≠ some b →
        parseBuffer P (some (h :: payload.set k b ++ [c])) chEn cfgEn = (.invalidCrc, [])) ∧
      (∀ c', c' ≠ c →
        parseBuffer P (some (h :: payload ++ [c'])) chEn cfgEn = (.invalidCrc, [])) ∧
      (h' ≠ h → hdrVersion h' = 0 → hdrSize h' = hdrSize h →
        parseBuffer P (some (h' :: payload ++ [c])) chEn cfgEn = (.invalidCrc, []))) ∧
    (hdrVersion h' ≠ 0 →
      parseBuffer P (some (h' :: payload' ++ [c])) chEn cfgEn = (.unsupportedVersion, [])) ∧
    (hdrVersion h' = 0 → (hdrSize h).toNat < (hdrSize h').toNat →
      parseBuffer P (some (h' :: payload' ++ [c])) chEn cfgEn = (.invalidSize, []))

/-! ### Generator -/

/-- PRNG_INIT loads a non-zero state, 1 for seed 0, and changes nothing else but the results (R121, R124). -/
def Obligations.PrngInitSeeds : Prop :=
  ∀ (seed : Byte) (s : State), ∃ v, exec (.prngInit seed) s = .next { s with lfsr := v, result := .none } ∧
    v ≠ 0 ∧ (seed = 0 → v = 1) ∧ v = lfsrLoad Config.params seed

/-- PRNG_NEXT advances `LFSR` by eight single-bit steps and returns their emitted bits in the order of `LFSR_ORDER`
(R125, R126). -/
def Obligations.PrngNextEmitsEightBits : Prop :=
  ∀ s : State, ∃ b : Byte,
    exec .prngNext s = .next { s with lfsr := lfsrSteps Config.params s.lfsr 8, result := .byte b } ∧
    ∀ j < 8, b.getLsbD (match Config.params.lfsrOrder with | .msbFirst => 7 - j | .lsbFirst => j)
      = (lfsrBit Config.params (lfsrSteps Config.params s.lfsr j)).2

/-- Every member of the family: a bijection, 0 to 0 with bit 0, and the 127 non-zero states on one cycle (R120,
R123). -/
def Obligations.LfsrBitIsOneCycle : Prop :=
  ∀ P : Params, (∀ r r' : Bits7, (lfsrBit P r).1 = (lfsrBit P r').1 → r = r') ∧
    lfsrBit P 0 = (0, false) ∧
    (∀ r r' : Bits7, r ≠ 0 → r' ≠ 0 → ∃ n < 127, lfsrSteps P r n = r') ∧
    ∀ r : Bits7, lfsrSteps P r 127 = r

/-- The keystream of every seed has period exactly 127 and its first 127 bytes are distinct (R128). -/
def Obligations.KeystreamPeriod : Prop :=
  ∀ (P : Params) (seed : Byte),
    (∀ n, keystream P seed (n + 127) = keystream P seed n) ∧
    ∀ m n, m < 127 → n < 127 → keystream P seed m = keystream P seed n → m = n

/-- After PRNG_INIT, the `n`-th PRNG_NEXT returns `K(seed, n)`, whatever the machine held before and whatever
instructions that do not write `LFSR` run in between (R127). -/
def Obligations.SeededRunYieldsKeystream : Prop :=
  ∀ (seed : Byte) (between : List Instr) (s₀ s t : State), exec (.prngInit seed) s₀ = .next s →
    runKeepsStream between s t →
    exec .prngNext t = .next
      { t with
        lfsr := prngState Config.params (lfsrLoad Config.params seed) (between.count .prngNext + 1)
        result := .byte (keystream Config.params seed (between.count .prngNext)) }

/-- The same of a run of the machine on the command bytes of PRNG_INIT and `n + 1` times PRNG_NEXT (R92, R127). That
commands are taken from bytes is the model's choice (log entries 19, 21). -/
def Obligations.SeededCommandsYieldKeystream : Prop :=
  ∀ (s : State) (seed : Byte) (n : Nat), s.issued.format = .cmd →
    s.issued.bytes = 0x02 :: seed :: List.replicate (n + 1) 0x03 →
    Host.Core.run core (n + 2) s = .next
      { s with
        issued := { s.issued with bytes := [] }
        lfsr := prngState Config.params (lfsrLoad Config.params seed) (n + 1)
        result := .byte (keystream Config.params seed n) }

/-- `LFSR = 0` gives 0x00 and stays (R126). -/
def Obligations.ZeroLfsrStaysZero : Prop :=
  ∀ s : State, s.lfsr = 0 → exec .prngNext s = .next { s with result := .byte 0 }

/-! ### Parser -/

/-- An `absent` buffer: NULL_POINTER, first of all tests, from PARSE and by the spec's decision from every operation
that takes one, and RANDOMIZE as a no-op (R150, R162, R203, R213; log entry 14). -/
def Obligations.AbsentBuffers : Prop :=
  ∀ (s : State) (chEn cfgEn : Bool) (offset : Byte) (b : Buffer) (cap : Nat),
    (∀ i ∈ [Instr.parse none chEn cfgEn, .cobsParse none chEn cfgEn, .randCobsParse none chEn cfgEn],
      exec i s = .next { s with result := .parsed .nullPointer [] }) ∧
    (∀ i ∈ [Instr.buildOa offset none cap, .buildCfg none b cap, .buildCfg b none cap,
        .cobsBuildOa offset none cap, .cobsBuildCfg none b cap, .cobsBuildCfg b none cap,
        .randCobsBuildOa offset none cap, .randCobsBuildCfg none b cap, .randCobsBuildCfg b none cap],
      exec i s = .next { s with result := .built .nullPointer cap [] }) ∧
    exec (.randomize none) s = .next { s with result := .bytes [] }

/-- The tests of the first packet of a buffer, in order (R142 to R145, R149, R233). -/
def Obligations.ParseTestsInOrder : Prop :=
  ∀ (h : Byte) (tail : Bytes) (chEn cfgEn : Bool) (s : State),
    withinLenMax Config.params (h :: tail) →
    ∃ t, exec (.parse (some (h :: tail)) chEn cfgEn) s = .next t ∧
      (tail.length < 3 → t.result = .parsed .packetTooShort []) ∧
      (3 ≤ tail.length → 64 ≤ h.toNat → t.result = .parsed .unsupportedVersion []) ∧
      (3 ≤ tail.length → h.toNat < 64 → tail.length < h.toNat % 16 + 3 →
        t.result = .parsed .invalidSize []) ∧
      (h.toNat < 64 → h.toNat % 16 + 3 ≤ tail.length →
        tail[h.toNat % 16 + 2]?
          ≠ some ((h :: tail.take (h.toNat % 16 + 2)).foldl Config.params.ckStep 0) →
        t.result = .parsed .invalidCrc []) ∧
      (48 ≤ h.toNat → h.toNat < 64 → h.toNat % 16 + 3 ≤ tail.length →
        tail[h.toNat % 16 + 2]?
          = some ((h :: tail.take (h.toNat % 16 + 2)).foldl Config.params.ckStep 0) →
        t.result = .parsed .unsupportedFormat [])

/-- A present, empty buffer: the one parameter `PARSE_EMPTY_STATUS`, which is PACKET_TOO_SHORT or NONE, and no events
(R142). -/
def Obligations.ParseEmptyBuffer : Prop :=
  (emptyBufStatus Config.params = .packetTooShort ∨ emptyBufStatus Config.params = .none) ∧
  ∀ (s : State) (chEn cfgEn : Bool), exec (.parse (some []) chEn cfgEn) s
    = .next { s with result := .parsed (emptyBufStatus Config.params) [] }

/-- An OffsetArray packet: one event a value in ascending order, channels wrapping at 256, none and no error when the
sink is absent (R75, R146). -/
def Obligations.ParseOffsetArrayPacket : Prop :=
  ∀ (offset : Byte) (values : Bytes) (chEn cfgEn : Bool) (s : State),
    1 ≤ values.length → values.length ≤ 16 →
    exec (.parse (some (rawPacket Config.params (oaHeader values.length) (offset :: values))) chEn cfgEn) s
      = .next { s with result := .parsed .none (if chEn then setChannels offset values else []) }

/-- A ChannelValuePairs packet: one event a pair in order, a trailing channel with value 0, none and no error when the
sink is absent (R76, R147). -/
def Obligations.ParseChannelValuePairsPacket : Prop :=
  ∀ (payload : Bytes) (chEn cfgEn : Bool) (s : State), 2 ≤ payload.length → payload.length ≤ 17 →
    ∃ events : List Event,
      exec (.parse (some (rawPacket Config.params (BitVec.ofNat 8 (0x10 + (payload.length - 2))) payload))
          chEn cfgEn) s
        = .next { s with result := .parsed .none (if chEn then events else []) } ∧
      events.length = (payload.length + 1) / 2 ∧
      (∀ j, 2 * j + 1 < payload.length →
        events[j]? = some (.setChannel (payload.getD (2 * j) 0) (payload.getD (2 * j + 1) 0))) ∧
      ∀ j, 2 * j + 1 = payload.length → events[j]? = some (.setChannel (payload.getD (2 * j) 0) 0)

/-- A Config packet: exactly one event, split at the first 0x00, or the whole payload as key; none and no error when
the sink is absent (R77, R148). -/
def Obligations.ParseConfigPacket : Prop :=
  (∀ (key values : Bytes) (chEn cfgEn : Bool) (s : State), (0x00 : Byte) ∉ key →
    2 ≤ key.length + 1 + values.length → key.length + 1 + values.length ≤ 17 →
    exec (.parse (some (rawPacket Config.params (cfgHeader (key.length + 1 + values.length))
        (key ++ 0x00 :: values))) chEn cfgEn) s
      = .next { s with result := .parsed .none (if cfgEn then
          [.setConfig key (BitVec.ofNat 8 key.length) values (BitVec.ofNat 8 values.length)] else []) }) ∧
  ∀ (key : Bytes) (chEn cfgEn : Bool) (s : State), (0x00 : Byte) ∉ key → 2 ≤ key.length →
    key.length ≤ 17 →
    exec (.parse (some (rawPacket Config.params (cfgHeader key.length) key)) chEn cfgEn) s
      = .next { s with result := .parsed .none (if cfgEn then
          [.setConfig key (BitVec.ofNat 8 key.length) [] 0] else []) }

/-- A buffer of good packets followed by more: the later part decides the status and the earlier events stay (R140,
R152, R238). -/
def Obligations.ParseOfConcatenation : Prop :=
  ∀ (P : Params) (a b : Bytes) (chEn cfgEn : Bool) (events : List Event), a ≠ [] → b ≠ [] →
    parseBuffer P (some a) chEn cfgEn = (.none, events) →
    parseBuffer P (some (a ++ b)) chEn cfgEn
      = ((parseBuffer P (some b) chEn cfgEn).1, events ++ (parseBuffer P (some b) chEn cfgEn).2)

/-- A disabled sink hides its events and nothing else (R151). -/
def Obligations.DisabledSinkStillValidates : Prop :=
  ∀ (P : Params) (buf : Buffer) (chEn cfgEn : Bool),
    (parseBuffer P buf chEn cfgEn).1 = (parseBuffer P buf true true).1 ∧
    (parseBuffer P buf chEn cfgEn).2
      = (parseBuffer P buf true true).2.filter (sinkEnabled chEn cfgEn)

/-- A step on a buffer of packets is one PARSE of the whole buffer, whichever header row it begins with (R12, R141). That
a buffer can be issued so is the model's choice (log entry 1). -/
def Obligations.HeaderRowsRunParse : Prop :=
  ∀ (s : State) (h : Byte) (tail : Bytes), s.issued.format = .hdr → s.issued.bytes = h :: tail →
    step s = exec (.parse (some (h :: tail)) s.issued.chEn s.issued.cfgEn) { s with issued := Issue.nothing }

/-- The three rows with a layout, on a packet with the right checksum: its events come first, and the parse ends with
NONE when the buffer does, or goes on behind the packet (R141, R146 to R148; log entry 1). -/
def Obligations.HeaderRowsGatherEvents : Prop :=
  ∀ (s : State) (size : BitVec 4) (payload more : Bytes) (after : List Event → State),
    payload.length = size.toNat + 2 → withinLenMax Config.params (0x00 :: s.issued.bytes) →
    (∀ events, after events = { s with
      issued := Issue.nothing
      result := if more = [] then .parsed .none events
        else .parsed (parseBuffer Config.params (some more) s.issued.chEn s.issued.cfgEn).1
          (events ++ (parseBuffer Config.params (some more) s.issued.chEn s.issued.cfgEn).2) }) →
    (s.issued.bytes = payload ++ ck Config.params (mkHeader 0 0 size :: payload) 0 :: more →
      exec (.hdrOffsetArray size) s
        = .next (after (if s.issued.chEn then offsetArrayEvents payload else []))) ∧
    (s.issued.bytes = payload ++ ck Config.params (mkHeader 0 1 size :: payload) 0 :: more →
      exec (.hdrChannelValuePairs size) s
        = .next (after (if s.issued.chEn then channelValueEvents payload else []))) ∧
    (s.issued.bytes = payload ++ ck Config.params (mkHeader 0 2 size :: payload) 0 :: more →
      exec (.hdrConfig size) s = .next (after (if s.issued.cfgEn then configEvents payload else [])))

/-- The rows that are errors, where their own test decides: a version other than 0 ends the parse with
UNSUPPORTED_VERSION, a wrong checksum of any version 0 row with INVALID_CRC, type 3 in an otherwise good packet with
UNSUPPORTED_FORMAT; the events of earlier packets are delivered (R143, R145, R149, R152; log entry 1). -/
def Obligations.ErrorHeaderRowsEndTheParse : Prop :=
  ∀ (s : State) (ptype : BitVec 2) (size : BitVec 4) (front : Bytes) (events : List Event),
    goodPackets s.issued.chEn s.issued.cfgEn front events →
    (3 ≤ s.issued.bytes.length →
      ∀ i ∈ [Instr.hdrVersion1 ptype size, .hdrVersion2 ptype size, .hdrVersion3 ptype size],
        endsParse front events s i .unsupportedVersion) ∧
    ∀ (payload more : Bytes) (c : Byte), payload.length = size.toNat + 2 →
      s.issued.bytes = payload ++ c :: more →
      (∀ p ∈ [(0, Instr.hdrOffsetArray size), (1, .hdrChannelValuePairs size), (2, .hdrConfig size),
          (3, .hdrType3 size)], c ≠ ck Config.params (mkHeader 0 p.1 size :: payload) 0 →
        endsParse front events s p.2 .invalidCrc) ∧
      (c = ck Config.params (mkHeader 0 3 size :: payload) 0 →
        endsParse front events s (.hdrType3 size) .unsupportedFormat)

/-- Every header row on fewer than four bytes ends the parse with PACKET_TOO_SHORT, and every version 0 row on a
packet that overruns the buffer with INVALID_SIZE, the events of earlier packets delivered (R142, R144, R152; log
entry 1). -/
def Obligations.ShortHeaderRowsEndTheParse : Prop :=
  ∀ (s : State) (i : Instr) (front : Bytes) (events : List Event), i.format = .hdr →
    goodPackets s.issued.chEn s.issued.cfgEn front events →
    (s.issued.bytes.length < 3 → endsParse front events s i .packetTooShort) ∧
    ∀ size : BitVec 4, 3 ≤ s.issued.bytes.length → s.issued.bytes.length < size.toNat + 3 →
      i ∈ [Instr.hdrOffsetArray size, .hdrChannelValuePairs size, .hdrConfig size, .hdrType3 size] →
      endsParse front events s i .invalidSize

/-! ### Builder -/

/-- BUILD_OA, every case (R161, R162). -/
def Obligations.BuildOaWritesPacket : Prop :=
  ∀ (offset : Byte) (values : Bytes) (cap : Nat) (s : State),
    (values.length < 1 ∨ 16 < values.length →
      exec (.buildOa offset (some values) cap) s = .next { s with result := .built .invalidSize cap [] }) ∧
    (1 ≤ values.length → values.length ≤ 16 → cap < values.length + 3 →
      exec (.buildOa offset (some values) cap) s
        = .next { s with result := .built .bufferOverflow (values.length + 3) [] }) ∧
    (1 ≤ values.length → values.length ≤ 16 → values.length + 3 ≤ cap →
      exec (.buildOa offset (some values) cap) s
        = .next { s with
            result := .built .none (values.length + 3)
              (rawPacket Config.params (oaHeader values.length) (offset :: values)) })

/-- BUILD_CFG, every case (R162, R164). -/
def Obligations.BuildCfgWritesPacket : Prop :=
  ∀ (key values : Bytes) (cap ps : Nat) (s : State), ps = key.length + 1 + values.length →
    (ps < 2 ∨ 17 < ps →
      exec (.buildCfg (some key) (some values) cap) s
        = .next { s with result := .built .invalidSize cap [] }) ∧
    (2 ≤ ps → ps ≤ 17 → cap < ps + 2 →
      exec (.buildCfg (some key) (some values) cap) s
        = .next { s with result := .built .bufferOverflow (ps + 2) [] }) ∧
    (2 ≤ ps → ps ≤ 17 → ps + 2 ≤ cap →
      exec (.buildCfg (some key) (some values) cap) s
        = .next { s with
            result := .built .none (ps + 2)
              (rawPacket Config.params (cfgHeader ps) (key ++ 0x00 :: values)) })

/-- A successful build is a valid raw packet, and 19 bytes are always enough (R165). -/
def Obligations.BuiltPacketsAreValid : Prop :=
  ∀ (i : Instr) (s t : State) (st : Status) (n cap : Nat) (out : Bytes),
    ((∃ offset values, i = .buildOa offset values cap) ∨ ∃ key values, i = .buildCfg key values cap) →
    exec i s = .next t → t.result = .built st n out →
    (19 ≤ cap → st ≠ .bufferOverflow) ∧
    (st = .none → out.length = n ∧ 4 ≤ n ∧ n ≤ 19 ∧ hdrVersion (out.headD 0) = 0 ∧
      packetLength (out.headD 0) = n ∧
      out.getLast? = some (ck Config.params out.dropLast 0) ∧
      ∀ chEn cfgEn, (parseBuffer Config.params (some out) chEn cfgEn).1 = .none)

/-- PARSE of what a builder wrote gives back its operands (R154). -/
def Obligations.ParseOfBuildRoundTrips : Prop :=
  (∀ (offset : Byte) (values out : Bytes) (cap n : Nat) (cfgEn : Bool) (s t u : State),
    1 ≤ values.length → values.length ≤ 16 →
    exec (.buildOa offset (some values) cap) s = .next t → t.result = .built .none n out →
    exec (.parse (some out) true cfgEn) u
      = .next { u with result := .parsed .none (setChannels offset values) }) ∧
  ∀ (key values out : Bytes) (cap n : Nat) (chEn : Bool) (s t u : State),
    2 ≤ key.length + 1 + values.length → key.length + 1 + values.length ≤ 17 →
    (0x00 : Byte) ∉ key →
    exec (.buildCfg (some key) (some values) cap) s = .next t → t.result = .built .none n out →
    exec (.parse (some out) chEn true) u
      = .next { u with result := .parsed .none [.setConfig key (BitVec.ofNat 8 key.length) values
          (BitVec.ofNat 8 values.length)] }

/-! ### COBS framer -/

/-- COBS_ENC: empty exactly when the source is empty or the capacity below the worst case; otherwise no 0x00 in the
output and its length within the bound (R176, R179). -/
def Obligations.CobsEncOutput : Prop :=
  ∀ (src : Bytes) (cap : Nat) (s : State), withinLenMax Config.params src →
    ∃ out, exec (.cobsEnc (some src) cap) s = .next { s with result := .bytes out } ∧
      (out = [] ↔ src = [] ∨ cap < src.length + (src.length + 253) / 254) ∧
      (0x00 : Byte) ∉ out ∧ out.length ≤ cap ∧
      (out ≠ [] → src.length + 1 ≤ out.length ∧ out.length ≤ src.length + (src.length + 253) / 254)

/-- COBS_DEC of what COBS_ENC wrote gives the source back (R187). -/
def Obligations.CobsDecInvertsEnc : Prop :=
  ∀ (src : Bytes) (cap cap' : Nat) (s t : State) (frame : Bytes), src ≠ [] →
    src.length + (src.length + 253) / 254 ≤ cap →
    withinLenMax Config.params src → withinLenMax Config.params frame →
    exec (.cobsEnc (some src) cap) s = .next t → t.result = .bytes frame →
    frame.length - 1 ≤ cap' →
    exec (.cobsDec (some frame) cap') t = .next { t with result := .bytes src }

/-- The inverse law for every parameter value; with `COBS_ZERO_BEFORE_DELIM = false` also with the delimiter and
anything after it appended; and the double failure on the empty sequence (R187). -/
def Obligations.CobsDecodeInvertsEncode : Prop :=
  (∀ (P : Params) (src : Bytes) (cap : Nat), src ≠ [] →
    decMax (cobsEncode src (encMax src.length)).length ≤ cap →
    cobsDecode P (cobsEncode src (encMax src.length)) cap = src) ∧
  (∀ (P : Params) (src after : Bytes) (cap : Nat), src ≠ [] → P.cobsZeroBeforeDelim = false →
    decMax (cobsEncode src (encMax src.length) ++ 0x00 :: after).length ≤ cap →
    cobsDecode P (cobsEncode src (encMax src.length) ++ 0x00 :: after) cap = src) ∧
  ∀ (P : Params) (cap : Nat), cobsEncode [] cap = [] ∧ cobsDecode P [] cap = []

/-- The decoder's output bound, and its two failure conditions (R181, R188). -/
def Obligations.CobsDecBound : Prop :=
  ∀ (src : Bytes) (cap : Nat) (s : State), withinLenMax Config.params src →
    ∃ out, exec (.cobsDec (some src) cap) s = .next { s with result := .bytes out } ∧
      out.length ≤ src.length - 1 ∧ out.length ≤ cap ∧
      (src = [] ∨ cap < src.length - 1 → out = [])

/-- The parameter `COBS_ZERO_BEFORE_DELIM` matters only on input that contains a 0x00 byte (R183). -/
def Obligations.ZeroFreeFramesDecodeAlike : Prop :=
  ∀ (P Q : Params) (src : Bytes) (cap : Nat), (0x00 : Byte) ∉ src →
    cobsDecode P src cap = cobsDecode Q src cap

/-- The code rows on the block that follows: data copied, and before what is decoded behind it a zero after a run but
not after a full run; a delimiter behind a run ends the frame, and whether the zero owed is paid then is the
parameter's; a short last block is copied as far as it goes (R79, R182 to R184; log entry 1). -/
def Obligations.CodeRowsCopyTheirBlock : Prop :=
  ∀ (s : State) (code next : Byte) (data more : Bytes) (after : Bytes → State),
    withinLenMax Config.params (0x00 :: s.issued.bytes) → s.issued.bytes.length ≤ s.issued.cap →
    (∀ out, after out = { s with issued := Issue.nothing, result := .bytes out }) →
    (code ≠ 0x00 → code ≠ 0xFF →
      (s.issued.bytes = data → data.length + 1 ≤ code.toNat → exec (.cobsCodeRun code) s = .next (after data)) ∧
      (s.issued.bytes = data ++ next :: more → data.length + 1 = code.toNat → next ≠ 0x00 →
        exec (.cobsCodeRun code) s = .next (after (data ++ 0x00 ::
          cobsDecode Config.params (next :: more) s.issued.cap))) ∧
      (s.issued.bytes = data ++ 0x00 :: more → data.length + 1 = code.toNat →
        exec (.cobsCodeRun code) s = .next (after (data ++
          if Config.params.cobsZeroBeforeDelim then [0x00] else [])))) ∧
    (s.issued.bytes = data → data.length ≤ 254 → exec .cobsCodeFullRun s = .next (after data)) ∧
    (s.issued.bytes = data ++ next :: more → data.length = 254 →
      exec .cobsCodeFullRun s = .next (after (data ++
        cobsDecode Config.params (next :: more) s.issued.cap)))

/-- A frame that begins with the delimiter is empty, whatever follows and whatever the capacity (R182, R183, R185; log
entry 1). -/
def Obligations.DelimiterRowEndsTheFrame : Prop :=
  ∀ s : State, withinLenMax Config.params (0x00 :: s.issued.bytes) →
    exec .cobsCodeDelimiter s = .next { s with issued := Issue.nothing, result := .bytes [] }

/-- A step on a frame is one COBS_DEC of the whole frame, whichever code row it begins with (R12, R182). That a frame
can be issued so is the model's choice (log entry 1). -/
def Obligations.CodeRowsRunCobsDec : Prop :=
  ∀ (s : State) (c : Byte) (tail : Bytes), s.issued.format = .cobs → s.issued.bytes = c :: tail →
    step s = exec (.cobsDec (some (c :: tail)) s.issued.cap) { s with issued := Issue.nothing }

/-! ### Randomizer -/

/-- RANDOMIZE: first and last byte and the length stand, byte `i` between them is XORed with keystream byte `i - 1` of
the last byte's stream, and `LFSR` ends behind the keystream; below three bytes nothing changes (R81, R200 to
R202). -/
def Obligations.RandomizeMasksTheInside : Prop :=
  ∀ (buf : Bytes) (s : State), withinLenMax Config.params buf →
    ∃ out v, exec (.randomize (some buf)) s = .next { s with lfsr := v, result := .bytes out } ∧
      (buf.length < 3 → out = buf ∧ v = s.lfsr) ∧
      (3 ≤ buf.length → out.length = buf.length ∧ out.head? = buf.head? ∧
        out.getLast? = buf.getLast? ∧
        v = prngState Config.params (lfsrLoad Config.params (buf.getLastD 0)) (buf.length - 2) ∧
        ∀ i, 1 ≤ i → i + 1 < buf.length →
          out.getD i 0 = buf.getD i 0 ^^^ keystream Config.params (buf.getLastD 0) (i - 1))

/-- RANDOMIZE twice restores the buffer, whatever `LFSR` held before either pass, and leaves `LFSR` as the first pass
did (R204). -/
def Obligations.RandomizeIsAnInvolution : Prop :=
  (∀ (P : Params) (buf : Bytes) (r r' : Bits7),
    (randomizeBytes P (randomizeBytes P buf r).1 r').1 = buf ∧
    (randomizeBytes P (randomizeBytes P buf r).1 (randomizeBytes P buf r).2).2
      = (randomizeBytes P buf r).2) ∧
  ∀ (buf out : Bytes) (s t : State), withinLenMax Config.params buf →
    exec (.randomize (some buf)) s = .next t → t.result = .bytes out →
    exec (.randomize (some out)) t = .next { t with result := .bytes buf }

/-! ### Composites -/

/-- COBS_PARSE is decode, then parse (R210 to R212); a frame that could decode to more than `PARSE_BUF_CAP` bytes is not
decoded at all (R211). -/
def Obligations.CobsParseDecodesThenParses : Prop :=
  (∀ (frame raw : Bytes) (chEn cfgEn : Bool) (s : State) (p : Status × List Event),
    withinLenMax Config.params frame →
    raw = cobsDecode Config.params frame (parseBufCap Config.params) →
    p = parseBuffer Config.params (some raw) chEn cfgEn →
    (raw = [] → exec (.cobsParse (some frame) chEn cfgEn) s
      = .next { s with result := .parsed (wrapperStatus Config.params.errDecodeFail) [] }) ∧
    (raw ≠ [] → exec (.cobsParse (some frame) chEn cfgEn) s
        = .next { s with result := .parsed p.1 p.2 } ∧
      exec (.cobsParse (some frame) chEn cfgEn) s = exec (.parse (some raw) chEn cfgEn) s)) ∧
  ∀ (P : Params) (frame : Bytes), parseBufCap P + 1 < frame.length →
    cobsDecode P frame (parseBufCap P) = []

/-- RAND_COBS_PARSE is decode, then randomize, then parse; `LFSR` is written exactly when three bytes or more were
decoded, whatever PARSE returns (R217). -/
def Obligations.RandCobsParseUnmasksThenParses : Prop :=
  ∀ (frame raw clear : Bytes) (v : Bits7) (chEn cfgEn : Bool) (s : State) (p : Status × List Event),
    withinLenMax Config.params frame →
    raw = cobsDecode Config.params frame (parseBufCap Config.params) →
    (clear, v) = randomizeBytes Config.params raw s.lfsr →
    p = parseBuffer Config.params (some clear) chEn cfgEn →
    (raw = [] → exec (.randCobsParse (some frame) chEn cfgEn) s
      = .next { s with result := .parsed (wrapperStatus Config.params.errDecodeFail) [] }) ∧
    (raw ≠ [] → exec (.randCobsParse (some frame) chEn cfgEn) s
        = .next { s with lfsr := v, result := .parsed p.1 p.2 } ∧
      exec (.randCobsParse (some frame) chEn cfgEn) s
        = exec (.parse (some clear) chEn cfgEn) { s with lfsr := v }) ∧
    (raw.length < 3 → v = s.lfsr) ∧
    (3 ≤ raw.length →
      v = prngState Config.params (lfsrLoad Config.params (raw.getLastD 0)) (raw.length - 2))

/-- COBS_BUILD_OA and COBS_BUILD_CFG, every case with present operands: the frame is COBS_ENC's of the packet, holds
no delimiter and is one byte longer; encoding fails exactly when the capacity is below that (R80, R214, R215). -/
def Obligations.CobsBuildFramesThePacket : Prop :=
  ∀ (i : Instr) (h : Byte) (payload : Bytes) (cap : Nat) (s : State) (good : Bool),
    ((∃ offset values, i = .cobsBuildOa offset (some values) cap ∧ h = oaHeader values.length ∧
        payload = offset :: values ∧ good = decide (1 ≤ values.length ∧ values.length ≤ 16)) ∨
      ∃ key values, i = .cobsBuildCfg (some key) (some values) cap ∧
        h = cfgHeader (key.length + 1 + values.length) ∧ payload = key ++ 0x00 :: values ∧
        good = decide (2 ≤ payload.length ∧ payload.length ≤ 17)) →
    (good = false → exec i s = .next { s with result := .built .invalidSize cap [] }) ∧
    (good = true → cap < payload.length + 3 → exec i s
      = .next { s with result := .built (wrapperStatus Config.params.errEncodeFail) cap [] }) ∧
    (good = true → payload.length + 3 ≤ cap → ∃ frame,
      exec i s = .next { s with result := .built .none (payload.length + 3) frame } ∧
      frame = cobsEncode (rawPacket Config.params h payload) cap ∧
      (0x00 : Byte) ∉ frame ∧ frame.length = payload.length + 3 ∧
      cobsDecode Config.params frame 19 = rawPacket Config.params h payload)

/-- RAND_COBS_BUILD_OA and RAND_COBS_BUILD_CFG, every case with present operands: as the plain ones on the masked
packet, `LFSR` written exactly when the build step succeeds, even when the encode step then fails (R218, R239). -/
def Obligations.RandCobsBuildMasksThenFrames : Prop :=
  ∀ (i : Instr) (h : Byte) (payload : Bytes) (cap : Nat) (s : State) (good : Bool) (v : Bits7),
    ((∃ offset values, i = .randCobsBuildOa offset (some values) cap ∧ h = oaHeader values.length ∧
        payload = offset :: values ∧ good = decide (1 ≤ values.length ∧ values.length ≤ 16)) ∨
      ∃ key values, i = .randCobsBuildCfg (some key) (some values) cap ∧
        h = cfgHeader (key.length + 1 + values.length) ∧ payload = key ++ 0x00 :: values ∧
        good = decide (2 ≤ payload.length ∧ payload.length ≤ 17)) →
    v = prngState Config.params (lfsrLoad Config.params (ck Config.params (h :: payload) 0))
      payload.length →
    (good = false → exec i s = .next { s with result := .built .invalidSize cap [] }) ∧
    (good = true → cap < payload.length + 3 → exec i s
      = .next { s with
          lfsr := v, result := .built (wrapperStatus Config.params.errEncodeFail) cap [] }) ∧
    (good = true → payload.length + 3 ≤ cap → ∃ frame,
      exec i s = .next { s with lfsr := v, result := .built .none (payload.length + 3) frame } ∧
      frame = cobsEncode (randomizeBytes Config.params (rawPacket Config.params h payload) 0).1 cap ∧
      (0x00 : Byte) ∉ frame ∧ frame.length = payload.length + 3 ∧
      cobsDecode Config.params frame 19
        = (randomizeBytes Config.params (rawPacket Config.params h payload) 0).1)

/-- End to end: what a framed build made, plain or randomized, parses back to its operands, in a frame of at most 20
bytes without a delimiter (R80, R219). -/
def Obligations.FramedBuildParsesBack : Prop :=
  (∀ (offset : Byte) (values frame : Bytes) (cap n : Nat) (cfgEn : Bool) (s t u : State),
    (exec (.cobsBuildOa offset (some values) cap) s = .next t → t.result = .built .none n frame →
      frame.length ≤ 20 ∧ (0x00 : Byte) ∉ frame ∧ ∃ w, exec (.cobsParse (some frame) true cfgEn) u = .next w ∧
        w.result = .parsed .none (setChannels offset values)) ∧
    (exec (.randCobsBuildOa offset (some values) cap) s = .next t → t.result = .built .none n frame →
      frame.length ≤ 20 ∧ (0x00 : Byte) ∉ frame ∧ ∃ w, exec (.randCobsParse (some frame) true cfgEn) u = .next w ∧
        w.result = .parsed .none (setChannels offset values))) ∧
  ∀ (key values frame : Bytes) (cap n : Nat) (chEn : Bool) (s t u : State), (0x00 : Byte) ∉ key →
    (exec (.cobsBuildCfg (some key) (some values) cap) s = .next t → t.result = .built .none n frame →
      frame.length ≤ 20 ∧ (0x00 : Byte) ∉ frame ∧ ∃ w, exec (.cobsParse (some frame) chEn true) u = .next w ∧
        w.result = .parsed .none [.setConfig key (BitVec.ofNat 8 key.length) values
          (BitVec.ofNat 8 values.length)]) ∧
    (exec (.randCobsBuildCfg (some key) (some values) cap) s = .next t →
      t.result = .built .none n frame →
      frame.length ≤ 20 ∧ (0x00 : Byte) ∉ frame ∧ ∃ w, exec (.randCobsParse (some frame) chEn true) u = .next w ∧
        w.result = .parsed .none [.setConfig key (BitVec.ofNat 8 key.length) values
          (BitVec.ofNat 8 values.length)])
end

