-- ==== Sys2Proof/Laws/Build.lean ====
section
/-! SUPPORT. The builders: what their common end can do, and which operands let a build succeed. -/

namespace Sys2Proof.Machine

/-- Everything the common end of both builders can do. -/
theorem finishBuild_cases (P : Params) (body : Bytes) (cap : Nat) :
    (cap < body.length + 1 ∧
      finishBuild P body cap = { status := .bufferOverflow, sizeOut := body.length + 1, out := [] }) ∨
    (body.length + 1 ≤ cap ∧
      finishBuild P body cap
        = { status := .none, sizeOut := body.length + 1, out := body ++ [ck P body 0] }) := by
  by_cases h : cap < body.length + 1
  · exact .inl ⟨h, by simp [finishBuild, h]⟩
  · exact .inr ⟨by omega, by simp [finishBuild, h]⟩

/-- Everything BUILD_OA can do with a value sequence. -/
theorem buildOa_cases (P : Params) (offset : Byte) (values : Bytes) (cap : Nat) :
    ((values.length < 1 ∨ 16 < values.length) ∧
      buildOa P offset (some values) cap = { status := .invalidSize, sizeOut := cap, out := [] }) ∨
    (1 ≤ values.length ∧ values.length ≤ 16 ∧
      buildOa P offset (some values) cap
        = finishBuild P (mkHeader 0 0 (BitVec.ofNat 4 (values.length - 1)) :: offset :: values) cap) := by
  unfold buildOa
  simp only [Config.oaValuesMin, Config.oaValuesMax]
  split
  · exact .inl ⟨by omega, rfl⟩
  · exact .inr ⟨by omega, by omega, rfl⟩

/-- Everything BUILD_CFG can do with a key and a value sequence. -/
theorem buildCfg_cases (P : Params) (key values : Bytes) (cap : Nat) :
    ((key.length + 1 + values.length < 2 ∨ 17 < key.length + 1 + values.length) ∧
      buildCfg P (some key) (some values) cap = { status := .invalidSize, sizeOut := cap, out := [] }) ∨
    (2 ≤ key.length + 1 + values.length ∧ key.length + 1 + values.length ≤ 17 ∧
      buildCfg P (some key) (some values) cap
        = finishBuild P (mkHeader 0 2 (BitVec.ofNat 4 (key.length + 1 + values.length - 2)) ::
            (key ++ 0x00 :: values)) cap) := by
  unfold buildCfg
  simp only [Config.payloadMin, Config.payloadMax]
  split
  · exact .inl ⟨by omega, rfl⟩
  · exact .inr ⟨by omega, by omega, rfl⟩

end Sys2Proof.Machine
end

