-- ==== Sys2Proof/Laws/Cobs.lean ====
section
/-! SUPPORT. The framer: one turn of each loop without its fuel, what a block and a whole decoding can do. -/

namespace Sys2Proof.Machine

/-! ### Decoder -/

/-- The block of the delimiter. -/
theorem cobsBlock_zero (P : Params) (tail : Bytes) (pend : Bool) :
    cobsBlock P 0x00 tail pend = (if pend && P.cobsZeroBeforeDelim then [0x00] else [], none) := rfl

/-- The block of a code byte that is not the delimiter. -/
theorem cobsBlock_run (P : Params) {code : Byte} (tail : Bytes) (pend : Bool) (h : code ≠ 0x00) :
    cobsBlock P code tail pend = ((if pend then [0x00] else []) ++ tail.take (code.toNat - 1),
      if tail.drop (code.toNat - 1) = [] then none
      else some (tail.drop (code.toNat - 1), code != 0xFF)) := by
  unfold cobsBlock
  rw [if_neg h]
  simp only [List.isEmpty_iff]

/-- A block leaves less of the frame than it was given. -/
theorem cobsBlock_rest {P : Params} {code : Byte} {tail rest : Bytes} {pend pend' : Bool}
    (h : (cobsBlock P code tail pend).2 = some (rest, pend')) :
    code ≠ 0x00 ∧ rest ≠ [] ∧ rest = tail.drop (code.toNat - 1) ∧ pend' = (code != 0xFF) := by
  by_cases hc : code = 0x00
  · subst hc; cases h
  · rw [cobsBlock_run _ _ _ hc] at h
    simp only at h
    split at h
    · cases h
    · rename_i hr
      cases h
      exact ⟨hc, hr, rfl, rfl⟩

theorem cobsDecodeLoop_fuel (P : Params) : ∀ (n f f' : Nat) (src : Bytes) (pend : Bool),
    src.length ≤ n → src.length ≤ f → src.length ≤ f' →
    cobsDecodeLoop P f src pend = cobsDecodeLoop P f' src pend := by
  intro n
  induction n with
  | zero =>
    intro f f' src pend h _ _
    obtain rfl : src = [] := by simpa using h
    cases f <;> cases f' <;> rfl
  | succ n ih =>
    intro f f' src pend h h1 h2
    match src, f, f' with
    | [], f, f' => cases f <;> cases f' <;> rfl
    | b :: tail, 0, _ => simp at h1
    | b :: tail, _ + 1, 0 => simp at h2
    | b :: tail, f + 1, f' + 1 =>
      simp only [cobsDecodeLoop]
      split
      · rfl
      · rename_i rest pend' hb
        have hr : rest.length ≤ tail.length := by rw [(cobsBlock_rest hb).2.2.1]; simp
        simp at h h1 h2
        rw [ih f f' rest pend'] <;> omega

/-- The block loop on a frame, with as many turns as it can take. -/
def cobsDecodeAll (P : Params) (src : Bytes) (pend : Bool) : Bytes := cobsDecodeLoop P src.length src pend

/-- The block loop by its first block, with no bound on turns left. -/
theorem cobsDecodeAll_cons (P : Params) (code : Byte) (tail : Bytes) (pend : Bool) :
    cobsDecodeAll P (code :: tail) pend = (cobsBlock P code tail pend).1 ++
      match (cobsBlock P code tail pend).2 with
      | none => []
      | some (rest, pend') => cobsDecodeAll P rest pend' := by
  unfold cobsDecodeAll
  simp only [List.length_cons, cobsDecodeLoop]
  cases hb : (cobsBlock P code tail pend).2 with
  | none => rfl
  | some p =>
    obtain ⟨rest, pend'⟩ := p
    have hr : rest.length ≤ tail.length := by rw [(cobsBlock_rest hb).2.2.1]; simp
    simp only
    rw [cobsDecodeLoop_fuel P tail.length tail.length rest.length rest pend' hr hr (le_refl _)]

theorem cobsDecode_eq (P : Params) (src : Bytes) (cap : Nat) :
    cobsDecode P src cap = if src = [] ∨ cap < src.length - 1 then [] else cobsDecodeAll P src false := rfl

/-- Induction over the blocks of a frame: enough to show a fact of an empty frame and of a frame given it of what its
first block leaves. -/
theorem cobsDecode_induction {P : Params} {C : Bytes → Bool → Prop} (empty : ∀ pend, C [] pend)
    (block : ∀ code tail pend,
      (∀ rest pend', (cobsBlock P code tail pend).2 = some (rest, pend') → C rest pend') →
        C (code :: tail) pend) : ∀ src pend, C src pend := by
  have key : ∀ n (src : Bytes) pend, src.length ≤ n → C src pend := by
    intro n
    induction n with
    | zero =>
      intro src pend h
      obtain rfl : src = [] := by simpa using h
      exact empty pend
    | succ n ih =>
      intro src pend hl
      cases src with
      | nil => exact empty pend
      | cons code tail =>
        refine block code tail pend fun rest pend' hb => ih rest pend' ?_
        rw [(cobsBlock_rest hb).2.2.1]
        simp at *
        omega
  exact fun src pend => key _ src pend (le_refl _)

/-! ### Encoder -/

theorem codedRun_length (run : Bytes) : (codedRun run).length = run.length + 1 := rfl

/-- The code byte of a run that fits one. -/
theorem codedRun_code {run : Bytes} (h : run.length ≤ 254) :
    (BitVec.ofNat 8 (run.length + 1)).toNat = run.length + 1 ∧
      BitVec.ofNat 8 (run.length + 1) ≠ (0x00 : Byte) := by
  have e : (BitVec.ofNat 8 (run.length + 1)).toNat = run.length + 1 := by
    simp only [BitVec.toNat_ofNat]; omega
  refine ⟨e, fun h0 => ?_⟩
  rw [h0] at e
  simp at e

/-- Decoding a coded run at the front of a frame. -/
theorem cobsDecodeAll_codedRun (P : Params) (run more : Bytes) (pend : Bool) (h : run.length ≤ 254) :
    cobsDecodeAll P (codedRun run ++ more) pend = (if pend then [0x00] else []) ++ run ++
      if more = [] then [] else cobsDecodeAll P more (run.length != 254) := by
  obtain ⟨h1, h2⟩ := codedRun_code h
  unfold codedRun
  rw [List.cons_append, cobsDecodeAll_cons, cobsBlock_run _ _ _ h2, h1]
  simp only [Nat.add_sub_cancel, List.take_left', List.drop_left']
  have hf : (BitVec.ofNat 8 (run.length + 1) != (0xFF : Byte)) = (run.length != 254) := by
    rw [Bool.eq_iff_iff]
    simp only [bne_iff_ne, ne_eq, not_iff_not, ← BitVec.toNat_inj, h1]
    simp
  rw [hf]
  cases more with
  | nil => simp
  | cons b t => simp

/-- A frame is never empty. -/
theorem cobsEncodeLoop_ne_nil : ∀ (src run : Bytes), cobsEncodeLoop src run ≠ []
  | [], run => by simp [cobsEncodeLoop, codedRun]
  | b :: rest, run => by
    simp only [cobsEncodeLoop]
    split
    · simp [codedRun]
    · split
      · simp [codedRun]
      · exact cobsEncodeLoop_ne_nil rest _

/-- What a framed sequence decodes to, with nothing behind it or a delimiter that pays no zero. -/
theorem cobsDecodeAll_encode (P : Params) : ∀ (src run more : Bytes) (pend : Bool),
    (run.length < 254 ∨ run.length = 254 ∧ src = []) →
    (more = [] ∨ P.cobsZeroBeforeDelim = false ∧ ∃ after, more = 0x00 :: after) →
    cobsDecodeAll P (cobsEncodeLoop src run ++ more) pend
      = (if pend then [0x00] else []) ++ run ++ src := by
  intro src
  induction src with
  | nil =>
    intro run more pend hr hm
    simp only [cobsEncodeLoop]
    rw [cobsDecodeAll_codedRun P run more pend (by omega)]
    obtain rfl | ⟨hz, after, rfl⟩ := hm
    · simp
    · rw [cobsDecodeAll_cons, cobsBlock_zero]
      simp [hz]
  | cons b rest ih =>
    intro run more pend hr hm
    have hlt : run.length < 254 := by simpa using hr
    have hne : ∀ run, cobsEncodeLoop rest run ++ more ≠ [] := by
      intro run h0
      exact cobsEncodeLoop_ne_nil rest run (List.append_eq_nil_iff.1 h0).1
    simp only [cobsEncodeLoop]
    split
    · rename_i hb
      rw [List.append_assoc, cobsDecodeAll_codedRun P run _ pend (by omega), if_neg (hne [])]
      rw [ih [] more _ (by simp) hm]
      have : (run.length != 254) = true := by simp; omega
      simp [this, hb]
    · split
      · rename_i hb hf
        rw [List.append_assoc, cobsDecodeAll_codedRun P _ _ pend (by simp; omega), if_neg (hne [])]
        rw [ih [] more _ (by simp) hm]
        have : ((run ++ [b]).length != 254) = false := by
          simp only [Config.cobsRunMax] at hf
          simp
          omega
        rw [this]
        simp
      · rename_i hb hf
        rw [ih (run ++ [b]) more pend _ hm]
        · simp
        · by_cases h : run.length + 1 = 254
          · right; simp [h] at hf ⊢; exact hf
          · left; simp; omega

/-- A framed sequence holds no delimiter. -/
theorem cobsEncodeLoop_no_zero : ∀ (src run : Bytes),
    (run.length < 254 ∨ run.length = 254 ∧ src = []) → (0x00 : Byte) ∉ run →
    (0x00 : Byte) ∉ cobsEncodeLoop src run := by
  have hc : ∀ run : Bytes, run.length ≤ 254 → (0x00 : Byte) ∉ run → (0x00 : Byte) ∉ codedRun run := by
    intro run h h0
    simp only [codedRun, List.mem_cons, not_or]
    exact ⟨(codedRun_code h).2.symm, h0⟩
  intro src
  induction src with
  | nil => intro run hr h0; exact hc run (by omega) h0
  | cons b rest ih =>
    intro run hr h0
    have hlt : run.length < 254 := by simpa using hr
    simp only [cobsEncodeLoop]
    split
    · rw [List.mem_append, not_or]
      exact ⟨hc run (by omega) h0, ih [] (by simp) (by simp)⟩
    · rename_i hb
      have h0' : (0x00 : Byte) ∉ run ++ [b] := by
        simp only [List.mem_append, List.mem_singleton, not_or]
        exact ⟨h0, fun h => hb h.symm⟩
      split
      · rw [List.mem_append, not_or]
        exact ⟨hc _ (by simp; omega) h0', ih [] (by simp) (by simp)⟩
      · rename_i hf
        refine ih _ ?_ h0'
        by_cases h : run.length + 1 = 254
        · right; simp [h] at hf ⊢; exact hf
        · left; simp; omega

/-- The length of a framed sequence: at least one more than what it frames, at most one more for each 254 bytes. -/
theorem cobsEncodeLoop_length : ∀ (src run : Bytes),
    run.length + src.length + 1 ≤ (cobsEncodeLoop src run).length ∧
    (run.length < 254 ∨ run.length = 254 ∧ src = [] →
      (cobsEncodeLoop src run).length
        ≤ run.length + src.length + max 1 ((run.length + src.length + 253) / 254)) := by
  intro src
  induction src with
  | nil => intro run; simp only [cobsEncodeLoop, codedRun_length, List.length_nil]; omega
  | cons b rest ih =>
    intro run
    simp only [cobsEncodeLoop]
    split
    · have := ih []
      simp only [List.length_append, codedRun_length, List.length_cons, List.length_nil] at *
      simp at this
      omega
    · split
      · rename_i hf
        have := ih []
        have h1 : 0 < rest.length := by
          have := hf.2
          cases rest
          · contradiction
          · simp
        simp only [List.length_append, codedRun_length, List.length_cons, List.length_nil] at *
        simp at this
        simp only [Config.cobsRunMax] at hf
        omega
      · rename_i hf
        have := ih (run ++ [b])
        simp only [List.length_append, List.length_cons, List.length_nil] at *
        refine ⟨by omega, fun hr => ?_⟩
        have hlt : run.length < 254 := by simpa using hr
        have h2 := this.2 (by
          by_cases h : run.length + 1 = 254
          · right; simp [h] at hf; exact ⟨by omega, hf⟩
          · left; omega)
        have e : run.length + (0 + 1) + rest.length = run.length + (rest.length + 1) := by omega
        rw [e] at h2
        exact h2

/-! ### A whole decoding -/

/-- Everything COBS_DEC of a present frame or a code row can do. -/
theorem runDecode_cases (src : Bytes) (cap : Nat) (s : State) :
    (withinLenMax Config.params src = true ∧
      runDecode src cap s = .next (s.deliver (.bytes (cobsDecode Config.params src cap)))) ∨
    (withinLenMax Config.params src = false ∧ runDecode src cap s = .refused .longerThanLenMax) := by
  unfold runDecode
  split
  · exact .inl ⟨‹_›, rfl⟩
  · exact .inr ⟨by simp_all, rfl⟩

end Sys2Proof.Machine
end

