-- ==== Sys2Proof/Laws/Decode.lean ====
section
/-! SUPPORT. What the decoder's and the encoder's parts can do: each operand form reads back what is written, and what
it reads is what was written. -/

namespace Sys2Proof

/-! ### Headers and code bytes -/

/-- A header byte is made of its three fields. -/
theorem mkHeader_fields : ∀ h : Byte, mkHeader (hdrVersion h) (hdrType h) (hdrSize h) = h := by
  decide

/-- The fields of a header byte are the ones it was made of. -/
theorem fields_mkHeader : ∀ (v t : BitVec 2) (z : BitVec 4),
    hdrVersion (mkHeader v t z) = v ∧ hdrType (mkHeader v t z) = t ∧ hdrSize (mkHeader v t z) = z := by
  decide

/-- The row of a header byte, by its fields. -/
theorem decodeHeader_mkHeader : ∀ (v t : BitVec 2) (z : BitVec 4), decodeHeader (mkHeader v t z) =
    if v = 0 then
      if t = 0 then .hdrOffsetArray z else if t = 1 then .hdrChannelValuePairs z
      else if t = 2 then .hdrConfig z else .hdrType3 z
    else if v = 1 then .hdrVersion1 t z else if v = 2 then .hdrVersion2 t z else .hdrVersion3 t z := by
  decide

/-- A header byte decodes to an instruction that encodes to it. -/
theorem encode_decodeHeader : ∀ h : Byte, encode (decodeHeader h) = [h] ∧
    (decodeHeader h).format = .hdr ∧ (decodeHeader h).fitsCommand := by
  decide

/-- A code byte decodes to an instruction that encodes to it. -/
theorem encode_decodeCode : ∀ c : Byte, encode (decodeCode c) = [c] ∧
    (decodeCode c).format = .cobs ∧ (decodeCode c).fitsCommand := by
  decide

/-! ### Operands: what is written reads back -/

theorem takeBuffer_bufferBytes (b : Buffer) (rest : Bytes) (h : bufferFits b) :
    takeBuffer (bufferBytes b ++ rest) = .ok (b, rest) := by
  cases b with
  | none => rfl
  | some b =>
    simp only [bufferFits, decide_eq_true_eq] at h
    simp [bufferBytes, takeBuffer, BitVec.toNat_ofNat, Nat.mod_eq_of_lt h]

theorem takeBool_boolByte (b : Bool) (rest : Bytes) : takeBool (boolByte b :: rest) = .ok (b, rest) := by
  cases b <;> rfl

theorem takeCap_capByte (cap : Nat) (rest : Bytes) (h : cap < 256) :
    takeCap (capByte cap :: rest) = .ok (cap, rest) := by
  simp [takeCap, takeByte, capByte, Except.map, Nat.mod_eq_of_lt h]

/-! ### Operands: what is read was written -/

theorem takeByte_inv {bytes rest : Bytes} {b : Byte} (h : takeByte bytes = .ok (b, rest)) :
    bytes = b :: rest := by
  unfold takeByte at h
  split at h <;> cases h
  rfl

theorem takeBool_inv {bytes rest : Bytes} {b : Bool} (h : takeBool bytes = .ok (b, rest)) :
    bytes = boolByte b :: rest := by
  unfold takeBool at h
  split at h
  · cases h
  · split at h
    · cases h; subst_vars; rfl
    · split at h <;> cases h
      subst_vars; rfl

theorem takeCap_inv {bytes rest : Bytes} {cap : Nat} (h : takeCap bytes = .ok (cap, rest)) :
    bytes = capByte cap :: rest ∧ cap < 256 := by
  unfold takeCap at h
  cases hb : takeByte bytes with
  | error e => rw [hb] at h; cases h
  | ok p =>
    rw [hb] at h; cases h
    have := takeByte_inv (b := p.1) (rest := p.2) hb
    simp [capByte, this]; omega

theorem takeBuffer_inv {bytes rest : Bytes} {b : Buffer} (h : takeBuffer bytes = .ok (b, rest)) :
    bytes = bufferBytes b ++ rest ∧ bufferFits b := by
  unfold takeBuffer at h
  split at h
  · cases h
  split at h
  · cases h; subst_vars; simp [bufferBytes, bufferFits]
  split at h
  · split at h
    · cases h
    split at h
    · cases h
      rename_i n body hh
      subst_vars
      have := n.isLt
      simp only [bufferBytes, bufferFits, List.length_take]
      exact ⟨by rw [Nat.min_eq_left hh]; simp, by simp; omega⟩
    · cases h
  · cases h

/-- A sequence of two readings that succeeds succeeds in both. -/
theorem except_bind_inv {ε α β : Type} {x : Except ε α} {f : α → Except ε β} {r : β}
    (h : (x >>= f) = .ok r) : ∃ a, x = .ok a ∧ f a = .ok r := by
  cases x with
  | error e => cases h
  | ok a => exact ⟨a, rfl, h⟩

theorem takeParse_inv {mk : Buffer → Bool → Bool → Instr} {bytes rest : Bytes} {i : Instr}
    (h : takeParse mk bytes = .ok (i, rest)) : ∃ b chEn cfgEn, i = mk b chEn cfgEn ∧ bufferFits b ∧
      bytes = bufferBytes b ++ boolByte chEn :: boolByte cfgEn :: rest := by
  unfold takeParse at h
  obtain ⟨⟨b, r1⟩, h1, h⟩ := except_bind_inv h
  obtain ⟨⟨c, r2⟩, h2, h⟩ := except_bind_inv h
  obtain ⟨⟨d, r3⟩, h3, h⟩ := except_bind_inv h
  cases h
  have := takeBuffer_inv h1
  have := takeBool_inv h2
  have := takeBool_inv h3
  exact ⟨b, c, d, rfl, by simp_all⟩

theorem takeBuildOa_inv {mk : Byte → Buffer → Nat → Instr} {bytes rest : Bytes} {i : Instr}
    (h : takeBuildOa mk bytes = .ok (i, rest)) : ∃ offset b cap, i = mk offset b cap ∧ bufferFits b ∧
      cap < 256 ∧ bytes = offset :: bufferBytes b ++ capByte cap :: rest := by
  unfold takeBuildOa at h
  obtain ⟨⟨b, r1⟩, h1, h⟩ := except_bind_inv h
  obtain ⟨⟨c, r2⟩, h2, h⟩ := except_bind_inv h
  obtain ⟨⟨d, r3⟩, h3, h⟩ := except_bind_inv h
  cases h
  have := takeByte_inv h1
  have := takeBuffer_inv h2
  have := takeCap_inv h3
  exact ⟨b, c, d, rfl, by simp_all⟩

theorem takeBuildCfg_inv {mk : Buffer → Buffer → Nat → Instr} {bytes rest : Bytes} {i : Instr}
    (h : takeBuildCfg mk bytes = .ok (i, rest)) : ∃ key values cap, i = mk key values cap ∧
      bufferFits key ∧ bufferFits values ∧ cap < 256 ∧
      bytes = bufferBytes key ++ (bufferBytes values ++ capByte cap :: rest) := by
  unfold takeBuildCfg at h
  obtain ⟨⟨b, r1⟩, h1, h⟩ := except_bind_inv h
  obtain ⟨⟨c, r2⟩, h2, h⟩ := except_bind_inv h
  obtain ⟨⟨d, r3⟩, h3, h⟩ := except_bind_inv h
  cases h
  have := takeBuffer_inv h1
  have := takeBuffer_inv h2
  have := takeCap_inv h3
  exact ⟨b, c, d, rfl, by simp_all⟩

theorem takeFramer_inv {mk : Buffer → Nat → Instr} {bytes rest : Bytes} {i : Instr}
    (h : takeFramer mk bytes = .ok (i, rest)) : ∃ src cap, i = mk src cap ∧ bufferFits src ∧ cap < 256 ∧
      bytes = bufferBytes src ++ capByte cap :: rest := by
  unfold takeFramer at h
  obtain ⟨⟨c, r2⟩, h2, h⟩ := except_bind_inv h
  obtain ⟨⟨d, r3⟩, h3, h⟩ := except_bind_inv h
  cases h
  have := takeBuffer_inv h2
  have := takeCap_inv h3
  exact ⟨c, d, rfl, by simp_all⟩

end Sys2Proof
end

