-- ==== Sys2Proof/Laws/Exec.lean ====
section
/-! SUPPORT. What `exec` does with every instruction, said once: a statement about all instructions cites `exec_eq` and
never unfolds a meaning. -/

namespace Sys2Proof.Machine

/-- The results of a parse as results of an operation. -/
def parsedResult (p : Status × List Event) : Result := .parsed p.1 p.2

/-- The results of an instruction and the value it leaves in `LFSR`, as a function of its operands and of `LFSR`; a row's
operands are what is issued with it. -/
def instrOutcome (P : Params) (issued : Issue) (r : Bits7) : Instr → Result × Bits7
  | .cksum none seed => (.checksum (P.ckAbsent seed), r)
  | .cksum (some b) seed => (.checksum (ck P b seed), r)
  | .prngInit seed => (.none, lfsrLoad P seed)
  | .prngNext => (.byte (prngNext P r).1, (prngNext P r).2)
  | .parse buf chEn cfgEn => (parsedResult (parseBuffer P buf chEn cfgEn), r)
  | .buildOa offset values cap => (builtResult (buildOa P offset values cap), r)
  | .buildCfg key values cap => (builtResult (buildCfg P key values cap), r)
  | .cobsEnc none cap => (.bytes ((P.encAbsent cap).take cap), r)
  | .cobsEnc (some b) cap => (.bytes (cobsEncode b cap), r)
  | .cobsDec none cap => (.bytes ((P.decAbsent cap).take cap), r)
  | .cobsDec (some b) cap => (.bytes (cobsDecode P b cap), r)
  | .cobsParse frame chEn cfgEn =>
      let p := framedParse P plainMiddle frame chEn cfgEn r
      (parsedResult p.1, p.2)
  | .cobsBuildOa offset values cap =>
      let p := framedBuild P plainMiddle (buildOa P offset values Config.rawBufCap) cap r
      (builtResult p.1, p.2)
  | .cobsBuildCfg key values cap =>
      let p := framedBuild P plainMiddle (buildCfg P key values Config.rawBufCap) cap r
      (builtResult p.1, p.2)
  | .randomize none => (.bytes [], r)
  | .randomize (some b) => (.bytes (randomizeBytes P b r).1, (randomizeBytes P b r).2)
  | .randCobsParse frame chEn cfgEn =>
      let p := framedParse P (randomizeBytes P) frame chEn cfgEn r
      (parsedResult p.1, p.2)
  | .randCobsBuildOa offset values cap =>
      let p := framedBuild P (randomizeBytes P) (buildOa P offset values Config.rawBufCap) cap r
      (builtResult p.1, p.2)
  | .randCobsBuildCfg key values cap =>
      let p := framedBuild P (randomizeBytes P) (buildCfg P key values Config.rawBufCap) cap r
      (builtResult p.1, p.2)
  | .hdrOffsetArray size => (parsedResult (parseRow P issued (mkHeader 0 0 size)), r)
  | .hdrChannelValuePairs size => (parsedResult (parseRow P issued (mkHeader 0 1 size)), r)
  | .hdrConfig size => (parsedResult (parseRow P issued (mkHeader 0 2 size)), r)
  | .hdrType3 size => (parsedResult (parseRow P issued (mkHeader 0 3 size)), r)
  | .hdrVersion1 ptype size => (parsedResult (parseRow P issued (mkHeader 1 ptype size)), r)
  | .hdrVersion2 ptype size => (parsedResult (parseRow P issued (mkHeader 2 ptype size)), r)
  | .hdrVersion3 ptype size => (parsedResult (parseRow P issued (mkHeader 3 ptype size)), r)
  | .cobsCodeDelimiter => (.bytes (cobsDecode P (0x00 :: issued.bytes) issued.cap), r)
  | .cobsCodeRun code => (.bytes (cobsDecode P (code :: issued.bytes) issued.cap), r)
  | .cobsCodeFullRun => (.bytes (cobsDecode P (0xFF :: issued.bytes) issued.cap), r)
where
  /-- The parse of the buffer a header byte begins. -/
  parseRow (P : Params) (issued : Issue) (h : Byte) : Status × List Event :=
    parseBuffer P (some (h :: issued.bytes)) issued.chEn issued.cfgEn

/-- What is left of what is issued: a row takes it all, an operation leaves it. -/
def issuedAfter (i : Instr) (issued : Issue) : Issue :=
  if i.format = .cmd then issued else Issue.nothing

/-- What `exec` does with an instruction. -/
theorem exec_eq (i : Instr) (s : State) : exec i s =
    if instrWithinLenMax Config.params i s then
      .next { s with
        lfsr := (instrOutcome Config.params s.issued s.lfsr i).2
        issued := issuedAfter i s.issued
        result := (instrOutcome Config.params s.issued s.lfsr i).1 }
    else .refused .longerThanLenMax := by
  cases i with
  | cksum b | cobsEnc b | cobsDec b | randomize b => cases b <;> rfl
  | _ => rfl

/-- An instruction comes to a next state exactly when its sequences are within `LEN_MAX`, and to this one. -/
theorem exec_next_iff (i : Instr) (s t : State) : exec i s = .next t ↔
    instrWithinLenMax Config.params i s ∧ t = { s with
      lfsr := (instrOutcome Config.params s.issued s.lfsr i).2
      issued := issuedAfter i s.issued
      result := (instrOutcome Config.params s.issued s.lfsr i).1 } := by
  rw [exec_eq]
  split
  · rename_i h
    exact ⟨fun e => ⟨h, (Host.Outcome.next.inj e).symm⟩, fun e => congrArg _ e.2.symm⟩
  · rename_i h
    exact ⟨fun e => (nomatch e), fun e => absurd e.1 h⟩

end Sys2Proof.Machine
end

