-- ==== Sys2Proof/Machine/TestParams.lean ====
section
/-! DEFINITION. The spec's test instantiations `CK_TEST` (spec/40_checksum.md R114) and `LFSR_TEST` (spec/41_prng.md
R129) with the defaults of spec/00_scope.md R9: a named value of the parameters, used by tests only and never the
machine's own (decision D26). -/

namespace Sys2Proof.Machine

/-- One turn of the loop of `CK_TEST` (R114). -/
def ckTestShift (c : Byte) : Byte := if c.getLsbD 7 then (c <<< 1) ^^^ 0x07 else c <<< 1

/-- `CK_TEST` (R114). -/
def ckTest (s b : Byte) : Byte :=
  ckTestShift (ckTestShift (ckTestShift (ckTestShift (ckTestShift (ckTestShift (ckTestShift
    (ckTestShift (s ^^^ b))))))))

/-- The parameters of the spec's test vectors (R114, R129, defaults of R9). `LFSR_RESET` has no default; the
0 here is used by no test. -/
def testParams : Params where
  ckStep := ckTest
  lfsrTaps := .left65
  lfsrOut := .fedBack
  lfsrOrder := .msbFirst
  lfsrLoadRaw := fun s => s.setWidth 7
  lfsrReset := 0
  cobsZeroBeforeDelim := false
  parseEmptyStatus := .packetTooShort
  parseBufExtra := 0
  errDecodeFail := .invalidSize
  errEncodeFail := .unknown
  lenMaxExtra := none
  ckAbsent := fun _ => 0
  encAbsent := fun _ => []
  decAbsent := fun _ => []

end Sys2Proof.Machine
end

