-- ==== Sys2Proof/Laws/Generator.lean ====
section
/-! SUPPORT. The generator and the randomizer: what a shift depends on, which states they can leave, and the masked
bytes one by one. -/

namespace Sys2Proof.Machine

/-- A shift depends on the two parameters of R123 and on no other: closed values of these decide it. -/
theorem lfsrBit_eq (P : Params) :
    lfsrBit P = lfsrBit { testParams with lfsrTaps := P.lfsrTaps, lfsrOut := P.lfsrOut } := by
  funext r
  simp only [lfsrBit]

theorem lfsrLoad_ne_zero (P : Params) (seed : Byte) : lfsrLoad P seed ≠ 0 := by
  unfold lfsrLoad
  split
  · decide
  · split
    · decide
    · assumption

theorem lfsrBit_ne_zero (P : Params) {r : Bits7} (h : r ≠ 0) : (lfsrBit P r).1 ≠ 0 := by
  have key : ∀ t o (r : Bits7), r ≠ 0 →
      (lfsrBit { testParams with lfsrTaps := t, lfsrOut := o } r).1 ≠ 0 := by
    intro t o
    cases t <;> cases o <;> decide
  rw [lfsrBit_eq]
  exact key _ _ _ h

theorem prngNext_ne_zero (P : Params) {r : Bits7} (h : r ≠ 0) : (prngNext P r).2 ≠ 0 := by
  unfold prngNext
  simp only [List.foldl, prngShift]
  iterate 8 apply lfsrBit_ne_zero
  exact h

theorem maskBytes_ne_zero (P : Params) : ∀ (b : Bytes) {r : Bits7}, r ≠ 0 → (maskBytes P b r).2 ≠ 0
  | [], _, h => h
  | _ :: bs, _, h => by
    simp only [maskBytes]
    exact maskBytes_ne_zero P bs (prngNext_ne_zero P h)

theorem randomizeBytes_ne_zero (P : Params) (b : Bytes) {r : Bits7} (h : r ≠ 0) :
    (randomizeBytes P b r).2 ≠ 0 := by
  unfold randomizeBytes
  split
  · exact maskBytes_ne_zero P _ (lfsrLoad_ne_zero P _)
  · exact h

/-- Below three bytes RANDOMIZE does nothing. -/
theorem randomizeBytes_short (P : Params) {buf : Bytes} (r : Bits7) (h : buf.length < 3) :
    randomizeBytes P buf r = (buf, r) := by
  unfold randomizeBytes
  split
  · simp at h; omega
  · rfl

/-- From three bytes on, by the first byte, the inside and the last byte. -/
theorem randomizeBytes_long (P : Params) (first last : Byte) (inside : Bytes) (r : Bits7)
    (h : inside ≠ []) :
    randomizeBytes P (first :: inside ++ [last]) r
      = (first :: (maskBytes P inside (lfsrLoad P last)).1 ++ [last],
          (maskBytes P inside (lfsrLoad P last)).2) := by
  cases inside with
  | nil => contradiction
  | cons b t =>
    cases t with
    | nil => rfl
    | cons c t => simp [randomizeBytes, List.dropLast_cons_of_ne_nil]

theorem maskBytes_length (P : Params) : ∀ (b : Bytes) (r : Bits7), (maskBytes P b r).1.length = b.length
  | [], _ => rfl
  | _ :: bs, r => by simp [maskBytes, maskBytes_length P bs]

/-- Masking twice from the same register restores the bytes and ends in the same register. -/
theorem maskBytes_twice (P : Params) : ∀ (b : Bytes) (r : Bits7),
    maskBytes P (maskBytes P b r).1 r = (b, (maskBytes P b r).2)
  | [], _ => rfl
  | b :: bs, r => by
    simp only [maskBytes]
    rw [maskBytes_twice P bs]
    simp

theorem prngState_succ (P : Params) (r : Bits7) : ∀ n,
    prngState P r (n + 1) = prngState P (prngNext P r).2 n
  | 0 => rfl
  | n + 1 => by
    show (prngNext P (prngState P r (n + 1))).2 = _
    rw [prngState_succ P r n]; rfl

/-- The masked bytes one by one, and the register behind them. -/
theorem maskBytes_spec (P : Params) : ∀ (b : Bytes) (r : Bits7),
    (maskBytes P b r).2 = prngState P r b.length ∧
    ∀ i, i < b.length → (maskBytes P b r).1[i]? = some (b.getD i 0 ^^^ (prngNext P (prngState P r i)).1)
  | [], _ => ⟨rfl, by simp⟩
  | b :: bs, r => by
    obtain ⟨h1, h2⟩ := maskBytes_spec P bs (prngNext P r).2
    refine ⟨by simp only [maskBytes, List.length_cons]; rw [h1, prngState_succ], ?_⟩
    intro i hi
    cases i with
    | zero => simp [maskBytes, prngState]
    | succ i => simpa [maskBytes, prngState_succ] using h2 i (by simpa using hi)

end Sys2Proof.Machine
end

