-- ==== Sys2Proof/Laws/Operands.lean ====
section
/-! SUPPORT. The operand forms: which sequences `LEN_MAX` admits. -/

namespace Sys2Proof.Machine

/-- 255 bytes are within every `LEN_MAX` (spec/20_memory.md R57). -/
theorem withinLenMax_of_small (P : Params) {b : Bytes} (h : b.length ≤ 255) :
    withinLenMax P b = true := by
  simp [withinLenMax, h]

/-- What is shorter than an admitted sequence is admitted. -/
theorem withinLenMax_of_le (P : Params) {a b : Bytes} (h : a.length ≤ b.length)
    (hb : withinLenMax P b = true) : withinLenMax P a = true := by
  unfold withinLenMax at *
  cases hm : P.lenMaxExtra <;> simp [hm] at *
  omega

/-- `PARSE_BUF_CAP` is at least 19. -/
theorem parseBufCap_ge (P : Params) : 19 ≤ parseBufCap P := by
  unfold parseBufCap; simp

end Sys2Proof.Machine
end

