-- ==== Sys2Proof/Laws/Parse.lean ====
section
/-! SUPPORT. Everything the tests of one packet, the packet loop and a whole parse can do. -/

namespace Sys2Proof.Machine

theorem payloadSize_le (h : Byte) : payloadSize h ≤ 17 := by
  unfold payloadSize
  have := (hdrSize h).isLt
  omega

/-! ### One packet -/

/-- A packet that fails does so with one of five statuses. -/
theorem parsePacket_fails {P : Params} {chEn cfgEn : Bool} {h : Byte} {tail : Bytes} {st : Status}
    (hp : parsePacket P chEn cfgEn h tail = .fails st) :
    st ∈ [Status.packetTooShort, .unsupportedVersion, .invalidSize, .invalidCrc, .unsupportedFormat] := by
  unfold parsePacket at hp
  simp only at hp
  split at hp; · cases hp; simp
  split at hp; · cases hp; simp
  split at hp; · cases hp; simp
  split at hp; · cases hp; simp
  split at hp <;> cases hp; simp

/-- A packet that passes has passed every test, and the rest of the buffer is what follows it. -/
theorem parsePacket_passes {P : Params} {chEn cfgEn : Bool} {h : Byte} {tail rest : Bytes}
    {ev : List Event} (hp : parsePacket P chEn cfgEn h tail = .passes ev rest) :
    hdrVersion h = 0 ∧ payloadSize h + 1 ≤ tail.length ∧
      tail[payloadSize h]? = some (ck P (h :: tail.take (payloadSize h)) 0) ∧
      payloadEvents chEn cfgEn h (tail.take (payloadSize h)) = some ev ∧
      rest = tail.drop (payloadSize h + 1) := by
  unfold parsePacket at hp
  simp only at hp
  split at hp; · cases hp
  split at hp; · cases hp
  split at hp; · cases hp
  split at hp; · cases hp
  split at hp <;> cases hp
  rename_i h1 h2 h3 h4 _ h5
  have h3' : payloadSize h + 1 ≤ tail.length := by unfold packetLength at h3; unfold payloadSize; omega
  exact ⟨by simpa using h2, h3', (by simpa using h4 : some _ = _).symm, h5, rfl⟩

/-- A packet that meets every test passes. -/
theorem parsePacket_of_good {P : Params} {chEn cfgEn : Bool} {h : Byte} {tail : Bytes}
    {ev : List Event} (hv : hdrVersion h = 0) (hl : payloadSize h + 1 ≤ tail.length)
    (hc : tail[payloadSize h]? = some (ck P (h :: tail.take (payloadSize h)) 0))
    (he : payloadEvents chEn cfgEn h (tail.take (payloadSize h)) = some ev) :
    parsePacket P chEn cfgEn h tail = .passes ev (tail.drop (payloadSize h + 1)) := by
  unfold parsePacket
  have h1 : ¬ (tail.length + 1 < Config.packetMin) := by
    simp [payloadSize, Config.packetMin] at *; omega
  have h2 : ¬ (packetLength h > tail.length + 1) := by simp [payloadSize, packetLength] at *; omega
  simp [h1, h2, hv, hc, he]

/-- A payload and its checksum in front of more bytes pass. -/
theorem parsePacket_payload {P : Params} {chEn cfgEn : Bool} {h : Byte} {payload more : Bytes}
    {ev : List Event} (hv : hdrVersion h = 0) (hl : payload.length = payloadSize h)
    (he : payloadEvents chEn cfgEn h payload = some ev) :
    parsePacket P chEn cfgEn h (payload ++ ck P (h :: payload) 0 :: more) = .passes ev more := by
  rw [parsePacket_of_good hv (ev := ev)]
  · rw [← hl, List.drop_append]; simp
  · simp; omega
  · rw [← hl]; simp
  · rw [← hl]; simp [he]

/-- A ChannelValuePairs payload gives SetChannel events only. -/
theorem channelValueEvents_setChannel : ∀ (payload : Bytes), ∀ e ∈ channelValueEvents payload,
    ∃ c v, e = .setChannel c v
  | [], _, he => by simp [channelValueEvents] at he
  | [c], e, he => ⟨c, 0, by simpa [channelValueEvents] using he⟩
  | c :: v :: rest, e, he => by
    simp only [channelValueEvents, List.mem_cons] at he
    obtain rfl | he := he
    · exact ⟨c, v, rfl⟩
    · exact channelValueEvents_setChannel rest e he

/-- The events of a payload are well formed: lengths as stated, within the ranges of R77. -/
theorem payloadEvents_lengths {chEn cfgEn : Bool} {h : Byte} {payload : Bytes} {ev : List Event}
    (hl : payload.length ≤ 17) (he : payloadEvents chEn cfgEn h payload = some ev) :
    ∀ e ∈ ev, ∀ k kl v vl, e = .setConfig k kl v vl →
      k.length = kl.toNat ∧ v.length = vl.toNat ∧ k.length ≤ 17 ∧ v.length ≤ 16 := by
  unfold payloadEvents at he
  split at he <;> cases he
  · split
    · cases payload with
      | nil => simp [offsetArrayEvents]
      | cons o t =>
        intro e he
        obtain ⟨i, hi, rfl⟩ := List.mem_mapIdx.1 he
        simp
    · simp
  · split
    · intro e he k kl v vl h
      obtain ⟨c, v, rfl⟩ := channelValueEvents_setChannel _ e he
      cases h
    · simp
  · split
    · have h1 : (payload.takeWhile (· != 0)).length ≤ payload.length :=
        (List.takeWhile_sublist _).length_le
      unfold configEvents
      generalize payload.takeWhile (· != 0) = key at *
      simp only [List.mem_singleton]
      rintro e rfl k kl v vl ⟨⟩
      simp only [BitVec.toNat_ofNat, List.length_drop]
      omega
    · simp

/-! ### The loop -/

theorem parseLoop_fuel (P : Params) (chEn cfgEn : Bool) : ∀ (n f f' : Nat) (buf : Bytes)
    (acc : List Event), buf.length ≤ n → buf.length ≤ f → buf.length ≤ f' →
    parseLoop P chEn cfgEn f buf acc = parseLoop P chEn cfgEn f' buf acc := by
  intro n
  induction n with
  | zero =>
    intro f f' buf acc h _ _
    obtain rfl : buf = [] := by simpa using h
    cases f <;> cases f' <;> rfl
  | succ n ih =>
    intro f f' buf acc h h1 h2
    match buf, f, f' with
    | [], f, f' => cases f <;> cases f' <;> rfl
    | b :: tail, 0, _ => simp at h1
    | b :: tail, _ + 1, 0 => simp at h2
    | b :: tail, f + 1, f' + 1 =>
      simp only [parseLoop]
      split
      · rfl
      · rename_i ev rest hp
        split
        · rfl
        · have := (parsePacket_passes hp).2.1
          have hr : rest.length ≤ tail.length := by rw [(parsePacket_passes hp).2.2.2.2]; simp
          simp at h h1 h2
          apply ih <;> omega

theorem parseLoop_acc (P : Params) (chEn cfgEn : Bool) : ∀ (f : Nat) (buf : Bytes) (acc : List Event),
    parseLoop P chEn cfgEn f buf acc
      = ((parseLoop P chEn cfgEn f buf []).1, acc ++ (parseLoop P chEn cfgEn f buf []).2) := by
  intro f
  induction f with
  | zero => intro buf acc; simp [parseLoop]
  | succ f ih =>
    intro buf acc
    cases buf with
    | nil => simp [parseLoop]
    | cons b tail =>
      simp only [parseLoop]
      split
      · simp
      · split
        · simp
        · rw [ih _ (acc ++ _), ih _ ([] ++ _)]; simp

/-- `parseBuffer` by its first packet, with no bound on turns left. -/
theorem parseBuffer_cons (P : Params) (chEn cfgEn : Bool) (h : Byte) (tail : Bytes) :
    parseBuffer P (some (h :: tail)) chEn cfgEn =
      match parsePacket P chEn cfgEn h tail with
      | .fails st => (st, [])
      | .passes ev rest =>
        if rest = [] then (.none, ev)
        else ((parseBuffer P (some rest) chEn cfgEn).1, ev ++ (parseBuffer P (some rest) chEn cfgEn).2) := by
  cases hp : parsePacket P chEn cfgEn h tail with
  | fails st => simp [parseBuffer, parseLoop, hp]
  | passes ev rest =>
    cases rest with
    | nil => simp [parseBuffer, parseLoop, hp]
    | cons b r =>
      simp only [parseBuffer, if_false, reduceCtorEq]
      have e0 : parseLoop P chEn cfgEn (tail.length + 1) (h :: tail) []
          = parseLoop P chEn cfgEn tail.length (b :: r) ev := by
        simp [parseLoop, hp]
      rw [e0, parseLoop_acc]
      have hr : (b :: r).length ≤ tail.length := by rw [(parsePacket_passes hp).2.2.2.2]; simp
      rw [parseLoop_fuel P chEn cfgEn tail.length tail.length (r.length + 1) (b :: r) [] hr hr (by simp)]

/-- Induction over the packets of a buffer: enough to show a fact of an empty buffer, of a failing packet, and of a
passing packet given it of the rest. -/
theorem parseBuffer_induction {P : Params} {chEn cfgEn : Bool} {C : Bytes → Prop} (empty : C [])
    (packet : ∀ h tail,
      (∀ ev rest, parsePacket P chEn cfgEn h tail = .passes ev rest → rest ≠ [] → C rest) → C (h :: tail)) :
    ∀ buf, C buf := by
  have key : ∀ n (buf : Bytes), buf.length ≤ n → C buf := by
    intro n
    induction n with
    | zero =>
      intro buf h
      obtain rfl : buf = [] := by simpa using h
      exact empty
    | succ n ih =>
      intro buf hl
      cases buf with
      | nil => exact empty
      | cons h tail =>
        refine packet h tail fun ev rest hp _ => ih rest ?_
        rw [(parsePacket_passes hp).2.2.2.2]
        simp at *
        omega
  exact fun buf => key _ buf (le_refl _)

/-! ### A whole parse -/

/-- Everything a parse operation or a header row can do. -/
theorem runParse_cases (buf : Buffer) (chEn cfgEn : Bool) (s : State) :
    (bufferWithinLenMax Config.params buf = true ∧ runParse buf chEn cfgEn s
      = .next (s.deliver (.parsed (parseBuffer Config.params buf chEn cfgEn).1
          (parseBuffer Config.params buf chEn cfgEn).2))) ∨
    (bufferWithinLenMax Config.params buf = false ∧ runParse buf chEn cfgEn s = .refused .longerThanLenMax) := by
  unfold runParse
  split
  · exact .inl ⟨‹_›, rfl⟩
  · exact .inr ⟨by simp_all, rfl⟩

end Sys2Proof.Machine
end

