-- ==== Sys2Proof/Laws/PerInstr.lean ====
section
/-! SUPPORT. Statements made of every instruction, one lemma for each constructor of `Instr`. -/

namespace Sys2Proof.Laws

/-- The `match` of an instruction's row of spec/opcode_table.json. The row COBS_CODE_RUN is a range and has none. -/
def rowMatch : Instr → Byte
  | .cksum _ _ => 0x01
  | .prngInit _ => 0x02
  | .prngNext => 0x03
  | .parse _ _ _ => 0x04
  | .buildOa _ _ _ => 0x05
  | .buildCfg _ _ _ => 0x06
  | .cobsEnc _ _ => 0x07
  | .cobsDec _ _ => 0x08
  | .cobsParse _ _ _ => 0x09
  | .cobsBuildOa _ _ _ => 0x0A
  | .cobsBuildCfg _ _ _ => 0x0B
  | .randomize _ => 0x0C
  | .randCobsParse _ _ _ => 0x0D
  | .randCobsBuildOa _ _ _ => 0x0E
  | .randCobsBuildCfg _ _ _ => 0x0F
  | .hdrOffsetArray _ => 0x00
  | .hdrChannelValuePairs _ => 0x10
  | .hdrConfig _ => 0x20
  | .hdrType3 _ => 0x30
  | .hdrVersion1 _ _ => 0x40
  | .hdrVersion2 _ _ => 0x80
  | .hdrVersion3 _ _ => 0xC0
  | .cobsCodeDelimiter => 0x00
  | .cobsCodeRun _ => 0x00
  | .cobsCodeFullRun => 0xFF

/-- The `mask` of an instruction's row. -/
def rowMask : Instr → Byte
  | .cksum _ _ => 0xFF
  | .prngInit _ => 0xFF
  | .prngNext => 0xFF
  | .parse _ _ _ => 0xFF
  | .buildOa _ _ _ => 0xFF
  | .buildCfg _ _ _ => 0xFF
  | .cobsEnc _ _ => 0xFF
  | .cobsDec _ _ => 0xFF
  | .cobsParse _ _ _ => 0xFF
  | .cobsBuildOa _ _ _ => 0xFF
  | .cobsBuildCfg _ _ _ => 0xFF
  | .randomize _ => 0xFF
  | .randCobsParse _ _ _ => 0xFF
  | .randCobsBuildOa _ _ _ => 0xFF
  | .randCobsBuildCfg _ _ _ => 0xFF
  | .hdrOffsetArray _ => 0xF0
  | .hdrChannelValuePairs _ => 0xF0
  | .hdrConfig _ => 0xF0
  | .hdrType3 _ => 0xF0
  | .hdrVersion1 _ _ => 0xC0
  | .hdrVersion2 _ _ => 0xC0
  | .hdrVersion3 _ _ => 0xC0
  | .cobsCodeDelimiter => 0xFF
  | .cobsCodeRun _ => 0x00
  | .cobsCodeFullRun => 0xFF

/-- The first byte of an instruction's encoding lies in its row of the opcode table; a run's code byte lies in the range
of its row, `0x01` to `0xFE` (spec/30_encoding.md R71, R79, R87). -/
def OpcodeRow.Statement (i : Instr) : Prop :=
  i.wellFormed → ∃ b tail, encode i = b :: tail ∧ b &&& rowMask i = rowMatch i ∧
    ∀ code, i = .cobsCodeRun code → 0x01 ≤ b.toNat ∧ b.toNat ≤ 0xFE

theorem OpcodeRow.cksum (bytes : Buffer) (seed : Byte) :
    OpcodeRow.Statement (.cksum bytes seed) := fun _ =>
  ⟨_, _, rfl, by simp [rowMask, rowMatch], by simp⟩

theorem OpcodeRow.prngInit (seed : Byte) :
    OpcodeRow.Statement (.prngInit seed) := fun _ =>
  ⟨_, _, rfl, by simp [rowMask, rowMatch], by simp⟩

theorem OpcodeRow.prngNext :
    OpcodeRow.Statement .prngNext := fun _ =>
  ⟨_, _, rfl, by simp [rowMask, rowMatch], by simp⟩

theorem OpcodeRow.parse (buf : Buffer) (chEn cfgEn : Bool) :
    OpcodeRow.Statement (.parse buf chEn cfgEn) := fun _ =>
  ⟨_, _, rfl, by simp [rowMask, rowMatch], by simp⟩

theorem OpcodeRow.buildOa (offset : Byte) (values : Buffer) (cap : Nat) :
    OpcodeRow.Statement (.buildOa offset values cap) := fun _ =>
  ⟨_, _, rfl, by simp [rowMask, rowMatch], by simp⟩

theorem OpcodeRow.buildCfg (key values : Buffer) (cap : Nat) :
    OpcodeRow.Statement (.buildCfg key values cap) := fun _ =>
  ⟨_, _, rfl, by simp [rowMask, rowMatch], by simp⟩

theorem OpcodeRow.cobsEnc (src : Buffer) (cap : Nat) :
    OpcodeRow.Statement (.cobsEnc src cap) := fun _ =>
  ⟨_, _, rfl, by simp [rowMask, rowMatch], by simp⟩

theorem OpcodeRow.cobsDec (src : Buffer) (cap : Nat) :
    OpcodeRow.Statement (.cobsDec src cap) := fun _ =>
  ⟨_, _, rfl, by simp [rowMask, rowMatch], by simp⟩

theorem OpcodeRow.cobsParse (frame : Buffer) (chEn cfgEn : Bool) :
    OpcodeRow.Statement (.cobsParse frame chEn cfgEn) := fun _ =>
  ⟨_, _, rfl, by simp [rowMask, rowMatch], by simp⟩

theorem OpcodeRow.cobsBuildOa (offset : Byte) (values : Buffer) (cap : Nat) :
    OpcodeRow.Statement (.cobsBuildOa offset values cap) := fun _ =>
  ⟨_, _, rfl, by simp [rowMask, rowMatch], by simp⟩

theorem OpcodeRow.cobsBuildCfg (key values : Buffer) (cap : Nat) :
    OpcodeRow.Statement (.cobsBuildCfg key values cap) := fun _ =>
  ⟨_, _, rfl, by simp [rowMask, rowMatch], by simp⟩

theorem OpcodeRow.randomize (buf : Buffer) :
    OpcodeRow.Statement (.randomize buf) := fun _ =>
  ⟨_, _, rfl, by simp [rowMask, rowMatch], by simp⟩

theorem OpcodeRow.randCobsParse (frame : Buffer) (chEn cfgEn : Bool) :
    OpcodeRow.Statement (.randCobsParse frame chEn cfgEn) := fun _ =>
  ⟨_, _, rfl, by simp [rowMask, rowMatch], by simp⟩

theorem OpcodeRow.randCobsBuildOa (offset : Byte) (values : Buffer) (cap : Nat) :
    OpcodeRow.Statement (.randCobsBuildOa offset values cap) := fun _ =>
  ⟨_, _, rfl, by simp [rowMask, rowMatch], by simp⟩

theorem OpcodeRow.randCobsBuildCfg (key values : Buffer) (cap : Nat) :
    OpcodeRow.Statement (.randCobsBuildCfg key values cap) := fun _ =>
  ⟨_, _, rfl, by simp [rowMask, rowMatch], by simp⟩

theorem OpcodeRow.hdrOffsetArray (size : BitVec 4) :
    OpcodeRow.Statement (.hdrOffsetArray size) := fun _ => by
  refine ⟨_, _, rfl, ?_, by simp⟩
  revert size; decide

theorem OpcodeRow.hdrChannelValuePairs (size : BitVec 4) :
    OpcodeRow.Statement (.hdrChannelValuePairs size) := fun _ => by
  refine ⟨_, _, rfl, ?_, by simp⟩
  revert size; decide

theorem OpcodeRow.hdrConfig (size : BitVec 4) :
    OpcodeRow.Statement (.hdrConfig size) := fun _ => by
  refine ⟨_, _, rfl, ?_, by simp⟩
  revert size; decide

theorem OpcodeRow.hdrType3 (size : BitVec 4) :
    OpcodeRow.Statement (.hdrType3 size) := fun _ => by
  refine ⟨_, _, rfl, ?_, by simp⟩
  revert size; decide

theorem OpcodeRow.hdrVersion1 (ptype : BitVec 2) (size : BitVec 4) :
    OpcodeRow.Statement (.hdrVersion1 ptype size) := fun _ => by
  refine ⟨_, _, rfl, ?_, by simp⟩
  revert ptype size; decide

theorem OpcodeRow.hdrVersion2 (ptype : BitVec 2) (size : BitVec 4) :
    OpcodeRow.Statement (.hdrVersion2 ptype size) := fun _ => by
  refine ⟨_, _, rfl, ?_, by simp⟩
  revert ptype size; decide

theorem OpcodeRow.hdrVersion3 (ptype : BitVec 2) (size : BitVec 4) :
    OpcodeRow.Statement (.hdrVersion3 ptype size) := fun _ => by
  refine ⟨_, _, rfl, ?_, by simp⟩
  revert ptype size; decide

theorem OpcodeRow.cobsCodeDelimiter :
    OpcodeRow.Statement .cobsCodeDelimiter := fun _ =>
  ⟨_, _, rfl, by simp [rowMask, rowMatch], by simp⟩

theorem OpcodeRow.cobsCodeRun (code : Byte) :
    OpcodeRow.Statement (.cobsCodeRun code) := fun h => by
  refine ⟨code, [], rfl, by simp [rowMask, rowMatch], fun _ _ => ?_⟩
  simp [Instr.wellFormed] at h
  bv_omega

theorem OpcodeRow.cobsCodeFullRun :
    OpcodeRow.Statement .cobsCodeFullRun := fun _ =>
  ⟨_, _, rfl, by simp [rowMask, rowMatch], by simp⟩

end Sys2Proof.Laws
end

