-- ==== Sys2Proof/Laws/State.lean ====
section
/-! SUPPORT. One lemma for each field and each update of the state, true by `rfl`. -/

namespace Sys2Proof.Machine

/-! ### `State.deliver` -/

@[simp] theorem State.deliver_lfsr (s : State) (r : Result) :
    (s.deliver r).lfsr = s.lfsr := rfl
@[simp] theorem State.deliver_issued (s : State) (r : Result) :
    (s.deliver r).issued = s.issued := rfl
@[simp] theorem State.deliver_result (s : State) (r : Result) :
    (s.deliver r).result = r := rfl

/-! ### `State.setLfsr` -/

@[simp] theorem State.setLfsr_lfsr (s : State) (v : Bits7) :
    (s.setLfsr v).lfsr = v := rfl
@[simp] theorem State.setLfsr_issued (s : State) (v : Bits7) :
    (s.setLfsr v).issued = s.issued := rfl
@[simp] theorem State.setLfsr_result (s : State) (v : Bits7) :
    (s.setLfsr v).result = s.result := rfl

/-! ### `State.take` -/

@[simp] theorem State.take_lfsr (s : State) (rest : Bytes) :
    (s.take rest).lfsr = s.lfsr := rfl
@[simp] theorem State.take_issued (s : State) (rest : Bytes) :
    (s.take rest).issued = { s.issued with bytes := rest } := rfl
@[simp] theorem State.take_result (s : State) (rest : Bytes) :
    (s.take rest).result = s.result := rfl

/-! ### `State.takeAll` -/

@[simp] theorem State.takeAll_lfsr (s : State) :
    (s.takeAll).lfsr = s.lfsr := rfl
@[simp] theorem State.takeAll_issued (s : State) :
    (s.takeAll).issued = Issue.nothing := rfl
@[simp] theorem State.takeAll_result (s : State) :
    (s.takeAll).result = s.result := rfl

/-! ### `State.issue` -/

@[simp] theorem State.issue_lfsr (s : State) (issued : Issue) :
    (s.issue issued).lfsr = s.lfsr := rfl
@[simp] theorem State.issue_issued (s : State) (issued : Issue) :
    (s.issue issued).issued = issued := rfl
@[simp] theorem State.issue_result (s : State) (issued : Issue) :
    (s.issue issued).result = s.result := rfl

/-! ### `State.deliverParsed` -/

@[simp] theorem State.deliverParsed_lfsr (s : State) (p : (Status × List Event) × Bits7) :
    (s.deliverParsed p).lfsr = p.2 := rfl
@[simp] theorem State.deliverParsed_issued (s : State) (p : (Status × List Event) × Bits7) :
    (s.deliverParsed p).issued = s.issued := rfl
@[simp] theorem State.deliverParsed_result (s : State) (p : (Status × List Event) × Bits7) :
    (s.deliverParsed p).result = .parsed p.1.1 p.1.2 := rfl

/-! ### `State.deliverBuilt` -/

@[simp] theorem State.deliverBuilt_lfsr (s : State) (p : Built × Bits7) :
    (s.deliverBuilt p).lfsr = p.2 := rfl
@[simp] theorem State.deliverBuilt_issued (s : State) (p : Built × Bits7) :
    (s.deliverBuilt p).issued = s.issued := rfl
@[simp] theorem State.deliverBuilt_result (s : State) (p : Built × Bits7) :
    (s.deliverBuilt p).result = builtResult p.1 := rfl

end Sys2Proof.Machine
end

