-- ==== Sys2Proof/Laws/Step.lean ====
section
/-! SUPPORT. What a composite, an operation, a fetch and a step can do. -/

namespace Sys2Proof.Machine

/-! ### Composites -/

/-- Everything a parse composite can do with a frame. -/
theorem framedParse_cases (P : Params) (middle : Bytes → Bits7 → Bytes × Bits7) (frame : Bytes)
    (chEn cfgEn : Bool) (r : Bits7) :
    (cobsDecode P frame (parseBufCap P) = [] ∧ framedParse P middle (some frame) chEn cfgEn r
      = ((wrapperStatus P.errDecodeFail, []), r)) ∨
    (cobsDecode P frame (parseBufCap P) ≠ [] ∧ framedParse P middle (some frame) chEn cfgEn r
      = (parseBuffer P (some (middle (cobsDecode P frame (parseBufCap P)) r).1) chEn cfgEn,
          (middle (cobsDecode P frame (parseBufCap P)) r).2)) := by
  by_cases h : cobsDecode P frame (parseBufCap P) = []
  · exact .inl ⟨h, by simp [framedParse, h]⟩
  · exact .inr ⟨h, by simp [framedParse, h]⟩

/-- Everything a build composite can do with what was built. -/
theorem framedBuild_cases (P : Params) (middle : Bytes → Bits7 → Bytes × Bits7) (raw : Built) (cap : Nat)
    (r : Bits7) :
    (raw.status ≠ .none ∧ framedBuild P middle raw cap r
      = ({ status := raw.status, sizeOut := cap, out := [] }, r)) ∨
    (raw.status = .none ∧ cobsEncode (middle raw.out r).1 cap = [] ∧ framedBuild P middle raw cap r
      = ({ status := wrapperStatus P.errEncodeFail, sizeOut := cap, out := [] },
          (middle raw.out r).2)) ∨
    (raw.status = .none ∧ cobsEncode (middle raw.out r).1 cap ≠ [] ∧ framedBuild P middle raw cap r
      = ({ status := .none, sizeOut := (cobsEncode (middle raw.out r).1 cap).length,
            out := cobsEncode (middle raw.out r).1 cap }, (middle raw.out r).2)) := by
  by_cases h : raw.status = .none
  · by_cases h' : cobsEncode (middle raw.out r).1 cap = []
    · exact .inr (.inl ⟨h, h', by simp [framedBuild, h, h']⟩)
    · exact .inr (.inr ⟨h, h', by simp [framedBuild, h, h']⟩)
  · exact .inl ⟨h, by simp [framedBuild, h]⟩

/-- The plain parse composites leave the register alone. -/
theorem framedParse_plain (P : Params) (frame : Buffer) (chEn cfgEn : Bool) (r : Bits7) :
    (framedParse P plainMiddle frame chEn cfgEn r).2 = r := by
  cases frame with
  | none => rfl
  | some f => obtain ⟨-, h⟩ | ⟨-, h⟩ := framedParse_cases P plainMiddle f chEn cfgEn r <;> (rw [h]; try rfl)

/-- The plain build composites leave the register alone. -/
theorem framedBuild_plain (P : Params) (raw : Built) (cap : Nat) (r : Bits7) :
    (framedBuild P plainMiddle raw cap r).2 = r := by
  obtain ⟨-, h⟩ | ⟨-, -, h⟩ | ⟨-, -, h⟩ := framedBuild_cases P plainMiddle raw cap r <;> (rw [h]; try rfl)

/-! ### Rows -/

/-- A header row is the parse of the buffer it begins. -/
theorem exec_hdr {i : Instr} (hf : i.format = .hdr) :
    ∃ h, encode i = [h] ∧ ∀ s, exec i s = parseIssued h s := by
  cases i <;> simp [Instr.format] at hf <;> exact ⟨_, rfl, fun _ => rfl⟩

/-- A code row is the decoding of the frame it begins. -/
theorem exec_cobs {i : Instr} (hf : i.format = .cobs) :
    ∃ c, encode i = [c] ∧ ∀ s, exec i s = decodeIssued c s := by
  cases i <;> simp [Instr.format] at hf <;> exact ⟨_, rfl, fun _ => rfl⟩

/-! ### Fetch and step -/

/-- Everything a step can do. -/
theorem step_cases (s : State) :
    (∃ i rest, decode s.issued.format s.issued.bytes = .ok (i, rest) ∧ step s = exec i (s.take rest)) ∨
    ∃ e, decode s.issued.format s.issued.bytes = .error e ∧ step s = .refused (.undecodable e) := by
  unfold step fetch
  cases decode s.issued.format s.issued.bytes with
  | ok p => exact .inl ⟨p.1, p.2, rfl, rfl⟩
  | error e => exact .inr ⟨e, rfl, rfl⟩

/-- A step that comes to a next state runs an instruction. -/
theorem step_next {s t : State} (h : step s = .next t) :
    ∃ i rest, decode s.issued.format s.issued.bytes = .ok (i, rest) ∧ exec i (s.take rest) = .next t := by
  obtain ⟨i, rest, hd, h1⟩ | ⟨e, -, h1⟩ := step_cases s
  · exact ⟨i, rest, hd, h1 ▸ h⟩
  · rw [h1] at h; cases h

end Sys2Proof.Machine
end

