-- ==== Sys2Proof/Tests/Slice0.lean ====
section
/-! SUPPORT. Tests: the checks of WellFormed, decodings of words written out from spec/30_encoding.md, vectors of
spec/95_test_vectors.md under its test parameters, single steps, and a witness for the hypotheses of every statement
of Certificates/Slice0/Obligations.lean. -/

namespace Sys2Proof.Machine

/-! ### WellFormed refuses -/

theorem test_wf_cksum_absent : Instr.wellFormed (.cksum none 0) = false := by decide
theorem test_wf_cobs_enc_absent : Instr.wellFormed (.cobsEnc none 2) = false := by decide
theorem test_wf_cobs_dec_absent : Instr.wellFormed (.cobsDec none 2) = false := by decide
theorem test_wf_run_delimiter : Instr.wellFormed (.cobsCodeRun 0x00) = false := by decide
theorem test_wf_run_full : Instr.wellFormed (.cobsCodeRun 0xFF) = false := by decide
theorem test_fits_buffer : Instr.fitsCommand (.parse (some (List.replicate 256 0)) true true) = false := by
  decide +kernel
theorem test_fits_capacity : Instr.fitsCommand (.cobsEnc (some [0]) 256) = false := by decide
theorem test_fits_second_buffer :
    Instr.fitsCommand (.buildCfg (some []) (some (List.replicate 256 0)) 19) = false := by decide +kernel

/-! ### Decoding of words written out from R71, R79, R87, R92 -/

theorem test_decode_cksum : decode .cmd [0x01, 0x01, 0x03, 0x00, 0x00, 0x2A, 0x00]
    = .ok (.cksum (some [0x00, 0x00, 0x2A]) 0x00, []) := by decide
theorem test_decode_prng_init : decode .cmd [0x02, 0xD6] = .ok (.prngInit 0xD6, []) := by decide
theorem test_decode_prng_next : decode .cmd [0x03, 0x03] = .ok (.prngNext, [0x03]) := by decide
theorem test_decode_parse : decode .cmd [0x04, 0x00, 0x00, 0x01] = .ok (.parse none false true, []) := by
  decide
theorem test_decode_build_oa : decode .cmd [0x05, 0xFA, 0x01, 0x02, 0x01, 0x02, 0x13]
    = .ok (.buildOa 0xFA (some [0x01, 0x02]) 19, []) := by decide
theorem test_decode_build_cfg : decode .cmd [0x06, 0x01, 0x01, 0x41, 0x00, 0x13]
    = .ok (.buildCfg (some [0x41]) none 19, []) := by decide
theorem test_decode_cobs_enc : decode .cmd [0x07, 0x01, 0x04, 0x00, 0xF6, 0x1E, 0xD6, 0x05]
    = .ok (.cobsEnc (some [0x00, 0xF6, 0x1E, 0xD6]) 5, []) := by decide
theorem test_decode_cobs_dec : decode .cmd [0x08, 0x01, 0x05, 0x01, 0x04, 0xF6, 0x1E, 0xD6, 0x04]
    = .ok (.cobsDec (some [0x01, 0x04, 0xF6, 0x1E, 0xD6]) 4, []) := by decide
theorem test_decode_cobs_parse : decode .cmd [0x09, 0x01, 0x01, 0x01, 0x01, 0x00]
    = .ok (.cobsParse (some [0x01]) true false, []) := by decide
theorem test_decode_cobs_build_oa : decode .cmd [0x0A, 0x00, 0x01, 0x01, 0x2A, 0x05]
    = .ok (.cobsBuildOa 0x00 (some [0x2A]) 5, []) := by decide
theorem test_decode_cobs_build_cfg : decode .cmd [0x0B, 0x00, 0x01, 0x00, 0x14]
    = .ok (.cobsBuildCfg none (some []) 20, []) := by decide
theorem test_decode_randomize : decode .cmd [0x0C, 0x01, 0x04, 0x00, 0x00, 0x2A, 0xD6]
    = .ok (.randomize (some [0x00, 0x00, 0x2A, 0xD6]), []) := by decide
theorem test_decode_rand_cobs_parse : decode .cmd [0x0D, 0x01, 0x05, 0x01, 0x04, 0xF6, 0x1E, 0xD6, 0x01, 0x01]
    = .ok (.randCobsParse (some [0x01, 0x04, 0xF6, 0x1E, 0xD6]) true true, []) := by decide
theorem test_decode_rand_cobs_build_oa : decode .cmd [0x0E, 0x00, 0x01, 0x01, 0x2A, 0x05]
    = .ok (.randCobsBuildOa 0x00 (some [0x2A]) 5, []) := by decide
theorem test_decode_rand_cobs_build_cfg :
    decode .cmd [0x0F, 0x01, 0x04, 0x42, 0x61, 0x73, 0x65, 0x01, 0x01, 0x10, 0x14]
      = .ok (.randCobsBuildCfg (some [0x42, 0x61, 0x73, 0x65]) (some [0x10]) 20, []) := by decide
theorem test_decode_hdr_offset_array : decode .hdr [0x0F, 0x04] = .ok (.hdrOffsetArray 15, [0x04]) := by
  decide
theorem test_decode_hdr_channel_value_pairs : decode .hdr [0x11] = .ok (.hdrChannelValuePairs 1, []) := by
  decide
theorem test_decode_hdr_config : decode .hdr [0x24] = .ok (.hdrConfig 4, []) := by decide
theorem test_decode_hdr_type3 : decode .hdr [0x3F] = .ok (.hdrType3 15, []) := by decide
theorem test_decode_hdr_version1 : decode .hdr [0x6A] = .ok (.hdrVersion1 2 10, []) := by decide
theorem test_decode_hdr_version2 : decode .hdr [0x91] = .ok (.hdrVersion2 1 1, []) := by decide
theorem test_decode_hdr_version3 : decode .hdr [0xC0] = .ok (.hdrVersion3 0 0, []) := by decide
theorem test_decode_cobs_delimiter : decode .cobs [0x00, 0x09] = .ok (.cobsCodeDelimiter, [0x09]) := by
  decide
theorem test_decode_cobs_run : decode .cobs [0xFE] = .ok (.cobsCodeRun 0xFE, []) := by decide
theorem test_decode_cobs_full_run : decode .cobs [0xFF, 0x01] = .ok (.cobsCodeFullRun, [0x01]) := by decide

theorem test_refuse_operation : decode .cmd [0x10] = .error (.noSuchOperation 0x10) := by decide
theorem test_refuse_truncated : decode .cmd [0x01, 0x01, 0x03, 0x00] = .error .truncated := by decide
theorem test_refuse_presence : decode .cmd [0x0C, 0x02] = .error (.badPresenceByte 0x02) := by decide
theorem test_refuse_boolean : decode .cmd [0x04, 0x00, 0x02, 0x00] = .error (.badBooleanByte 0x02) := by
  decide

/-! ### Vectors of spec/95_test_vectors.md section 2, under the test parameters -/

theorem test_cksum_digits :
    ck testParams [0x31, 0x32, 0x33, 0x34, 0x35, 0x36, 0x37, 0x38, 0x39] 0 = 0xF4 := by decide +kernel
theorem test_cksum_seed : ck testParams [0x00] 0x80 = 0x89 := by decide
theorem test_prng_init_coerces : lfsrLoad testParams 0x80 = 1 := by decide
theorem test_prng_init_truncates : lfsrLoad testParams 0xD6 = 0x56 := by decide
theorem test_prng_next_56 : prngNext testParams 0x56 = (0xF6, 0x76) := by decide
theorem test_prng_next_lsb_first : (prngNext { testParams with lfsrOrder := .lsbFirst } 0x01).1 = 0x60 := by
  decide

theorem test_parse_wraps :
    parseBuffer testParams (some [0x01, 0xFF, 0x00, 0x07, 0x28]) true true
      = (.none, [.setChannel 0xFF 0, .setChannel 0x00 7]) := by decide +kernel
theorem test_parse_second_packet_fails :
    parseBuffer testParams (some [0x00, 0x00, 0x2A, 0xD6, 0x00, 0x07, 0x09, 0x00]) true true
      = (.invalidCrc, [.setChannel 0 42]) := by decide +kernel
theorem test_parse_type3_after_checksum :
    parseBuffer testParams (some [0x30, 0x01, 0x02, 0xFA]) false false = (.unsupportedFormat, []) := by
  decide +kernel
theorem test_parse_config :
    parseBuffer testParams (some [0x24, 0x42, 0x61, 0x73, 0x65, 0x00, 0x10, 0x43]) true true
      = (.none, [.setConfig [0x42, 0x61, 0x73, 0x65] 4 [0x10] 1]) := by decide +kernel
theorem test_channel_value_odd :
    channelValueEvents [0x05, 0x64, 0x07] = [.setChannel 5 100, .setChannel 7 0] := by decide

theorem test_build_oa : buildOa testParams 0x00 (some [0x2A]) 4
    = { status := .none, sizeOut := 4, out := [0x00, 0x00, 0x2A, 0xD6] } := by decide +kernel
theorem test_build_oa_overflow : buildOa testParams 0x00 (some [0x2A]) 3
    = { status := .bufferOverflow, sizeOut := 4, out := [] } := by decide
theorem test_build_cfg : buildCfg testParams (some []) (some [0x07]) 19
    = { status := .none, sizeOut := 4, out := [0x20, 0x00, 0x07, 0x56] } := by decide +kernel
theorem test_build_cfg_size : buildCfg testParams (some []) (some []) 19
    = { status := .invalidSize, sizeOut := 19, out := [] } := by decide

theorem test_cobs_enc : cobsEncode [0x11, 0x22, 0x00, 0x33] 5 = [0x03, 0x11, 0x22, 0x02, 0x33] := by decide
theorem test_cobs_enc_254 :
    cobsEncode (List.replicate 254 0xAA) 255 = 0xFF :: List.replicate 254 0xAA := by decide +kernel
theorem test_cobs_dec : cobsDecode testParams [0x03, 0x11, 0x22, 0x02, 0x33] 4 = [0x11, 0x22, 0x00, 0x33] := by
  decide
theorem test_cobs_dec_zero_before_delimiter :
    cobsDecode { testParams with cobsZeroBeforeDelim := true } [0x02, 0x2A, 0x00, 0x09, 0x09] 4
      = [0x2A, 0x00] := by decide

theorem test_randomize : randomizeBytes testParams [0x00, 0x00, 0x2A, 0xD6] 0x55
    = ([0x00, 0xF6, 0x1E, 0xD6], 0x34) := by decide
theorem test_randomize_three : randomizeBytes testParams [0x07, 0x08, 0x09] 0x55
    = ([0x07, 0x3E, 0x09], 0x36) := by decide

theorem test_cobs_parse : framedParse testParams plainMiddle (some [0x01, 0x01, 0x03, 0x2A, 0xD6]) true true 0x55
    = ((.none, [.setChannel 0 42]), 0x55) := by decide +kernel
theorem test_cobs_build_oa_capacity : framedBuild testParams plainMiddle
    (buildOa testParams 0x00 (some [0x2A]) Config.rawBufCap) 4 0x55
      = ({ status := .unknown, sizeOut := 4, out := [] }, 0x55) := by decide
theorem test_cobs_build_cfg : framedBuild testParams plainMiddle
    (buildCfg testParams (some [0x42, 0x61, 0x73, 0x65]) (some [0x10]) Config.rawBufCap) 20 0x55
      = ({ status := .none, sizeOut := 9,
           out := [0x06, 0x24, 0x42, 0x61, 0x73, 0x65, 0x03, 0x10, 0x43] }, 0x55) := by decide +kernel
theorem test_rand_cobs_parse : framedParse testParams (randomizeBytes testParams)
    (some [0x01, 0x04, 0xF6, 0x1E, 0xD6]) true true 0x55 = ((.none, [.setChannel 0 42]), 0x34) := by decide +kernel
theorem test_rand_cobs_build_oa_capacity : framedBuild testParams (randomizeBytes testParams)
    (buildOa testParams 0x00 (some [0x2A]) Config.rawBufCap) 4 0x55
      = ({ status := .unknown, sizeOut := 4, out := [] }, 0x34) := by decide +kernel
theorem test_rand_cobs_build_cfg : (framedBuild testParams (randomizeBytes testParams)
    (buildCfg testParams (some [0x42, 0x61, 0x73, 0x65]) (some [0x10]) Config.rawBufCap) 20 0x55).1.out
      = [0x09, 0x24, 0xCB, 0x57, 0xC4, 0xD4, 0xA5, 0xCC, 0x43] := by decide +kernel

/-- The ranges of R74 to R78 and R82 follow from the limits of the payload; a framed packet is one byte longer (R80). -/
theorem test_constants : Config.packetMin = Config.payloadMin + 2 ∧ Config.packetMax = Config.payloadMax + 2 ∧
    Config.oaValuesMin = Config.payloadMin - 1 ∧ Config.oaValuesMax = Config.payloadMax - 1 ∧
    Config.cfgKeyMin = 0 ∧ Config.cfgKeyMax = Config.payloadMax ∧
    Config.cfgValuesMin = 0 ∧ Config.cfgValuesMax = Config.payloadMax - 1 ∧
    Config.framedPacketMax = 20 ∧ Config.rawBufCap = 19 := by decide

/-! ### The header rows (R142 to R144), the code rows (R181 to R184), and single steps -/

/-- A buffer of packets issued, both sinks wanted. -/
def issuedBuffer (bytes : Bytes) : State :=
  State.reset.issue { format := .hdr, bytes := bytes, chEn := true, cfgEn := true, cap := 0 }

/-- A frame issued, with a capacity for its data. -/
def issuedFrame (bytes : Bytes) (cap : Nat) : State :=
  State.reset.issue { format := .cobs, bytes := bytes, chEn := false, cfgEn := false, cap := cap }

/-- Commands issued. -/
def issuedCommands (bytes : Bytes) : State := State.reset.take bytes

/-- What a step delivers. -/
def stepResult (s : State) : Option Result :=
  match step s with
  | .next t => some t.result
  | _ => none

theorem test_header_row_short :
    stepResult (issuedBuffer [0x00, 0x00, 0x2A]) = some (.parsed .packetTooShort []) := by decide +kernel
theorem test_header_row_version :
    stepResult (issuedBuffer [0x40, 0x00, 0x2A, 0xD6]) = some (.parsed .unsupportedVersion []) := by
  decide +kernel
theorem test_header_row_size :
    stepResult (issuedBuffer [0x11, 0x00, 0x2A, 0xD6]) = some (.parsed .invalidSize []) := by decide +kernel
theorem test_code_row_pays_zero :
    stepResult (issuedFrame [0x02, 0x33, 0x02, 0x44] 3) = some (.bytes [0x33, 0x00, 0x44]) := by decide +kernel
theorem test_code_row_short_block :
    stepResult (issuedFrame [0x05, 0x11, 0x22] 2) = some (.bytes [0x11, 0x22]) := by decide +kernel
theorem test_code_row_capacity :
    stepResult (issuedFrame [0x05, 0x11, 0x22] 1) = some (.bytes []) := by decide +kernel
theorem test_full_run_owes_no_zero :
    cobsDecode testParams (0xFF :: List.replicate 254 0xAA ++ [0x02, 0x11]) 256
      = List.replicate 254 0xAA ++ [0x11] := by decide +kernel
theorem test_code_row_delimiter :
    stepResult (issuedFrame [0x00, 0x02, 0x2A] 2) = some (.bytes []) := by decide +kernel

theorem test_table_word_build_oa : decodeTableWord 8 0x05 = some (.buildOa 0 none 0) := by decide
theorem test_table_word_header : decodeTableWord 8 0xC3 = some (.hdrVersion3 0 3) := by decide
theorem test_table_word_code : decodeTableWord 8 0xFF = some .cobsCodeFullRun := by decide
theorem test_step_table_word : ∃ t, step (State.reset.withFetchWord 8 0x0C) = .next t ∧ t.result = .bytes [] :=
  ⟨_, rfl, rfl⟩
theorem test_step_header_word :
    stepResult (State.reset.withFetchWord 8 0xC0) = some (.parsed .unsupportedVersion []) := by decide +kernel
theorem test_step_code_word :
    stepResult (State.reset.withFetchWord 8 0xFF) = some (.bytes (List.replicate 254 0)) := by decide +kernel
theorem test_step_takes_its_bytes :
    ∃ t, step (issuedCommands [0x0C, 0x00, 0x03]) = .next t ∧ t.issued.bytes = [0x03] := ⟨_, rfl, rfl⟩
theorem test_step_takes_the_buffer :
    ∃ t, step (issuedBuffer [0x00, 0x00]) = .next t ∧ t.issued = Issue.nothing := ⟨_, rfl, rfl⟩
theorem test_step_without_command : step State.reset = .refused (.undecodable .noBytes) := rfl

/-! ### Witnesses: the hypotheses of each statement hold together, at the boundary values of its clauses -/

/-- A parameter record whose checksum is sensitive to every byte. -/
theorem test_witness_sensitive : CkSens testParams.ckStep := by
  have inj : ∀ c d : Byte, ckTestShift c = ckTestShift d → c = d := by
    have inv : ∀ c : Byte, (if (ckTestShift c).getLsbD 0 then ((ckTestShift c ^^^ 0x07) >>> 1) ||| 0x80
        else ckTestShift c >>> 1) = c := by decide
    intro c d h
    rw [← inv c, ← inv d, h]
  have key : ∀ c d : Byte, ckTest c 0 = ckTest d 0 → c = d := by
    intro c d h
    simpa using inj _ _ (inj _ _ (inj _ _ (inj _ _ (inj _ _ (inj _ _ (inj _ _ (inj _ _ h)))))))
  have e : ∀ v b, ckTest v b = ckTest (v ^^^ b) 0 := by intro v b; simp [ckTest]
  refine ⟨fun v b b' h => ?_, fun b v v' h => ?_⟩
  · have := key (v ^^^ b) (v ^^^ b') (by rw [← e, ← e]; exact h)
    simpa using this
  · have := key (v ^^^ b) (v' ^^^ b) (by rw [← e, ← e]; exact h)
    simpa using this

theorem test_witness_DecodeEncodeAgree :
    Instr.wellFormed (.cobsEnc (some (List.replicate 255 7)) 255) ∧
      Instr.fitsCommand (.cobsEnc (some (List.replicate 255 7)) 255) := by decide +kernel
theorem test_witness_EncodeOfDecodedIsInput : decode .cmd [0x03, 0x09] = .ok (.prngNext, [0x09]) := by
  decide
theorem test_witness_UnassignedOperationCodesAreRefused :
    ∀ code ∈ [(0x00 : Byte), 0x10, 0xFF], (code = 0x00 ∨ 0x10 ≤ code.toNat) ∧
      (issuedCommands [code]).issued.format = .cmd ∧ (issuedCommands [code]).issued.bytes = code :: [] :=
  fun code h => ⟨by revert h; revert code; decide, rfl, rfl⟩
theorem test_witness_StepRunsDecodedInstruction :
    decode (issuedCommands [0x03, 0x07]).issued.format (issuedCommands [0x03, 0x07]).issued.bytes
      = .ok (.prngNext, [0x07]) := rfl
theorem test_witness_OperationsChangeOnlyLfsrAndResult :
    Instr.format .prngNext = .cmd ∧ ∃ t, exec .prngNext State.reset = .next t := ⟨rfl, _, rfl⟩
theorem test_witness_HeaderAndCodeRowsWriteOnlyResults :
    (Instr.format (.hdrType3 0) = .hdr ∧ ∃ t, exec (.hdrType3 0) (issuedBuffer [1]) = .next t) ∧
    Instr.format (.cobsCodeRun 0x01) = .cobs ∧ ∃ t, exec (.cobsCodeRun 0x01) (issuedFrame [1] 1) = .next t :=
  ⟨⟨rfl, _, rfl⟩, rfl, _, rfl⟩
theorem test_witness_LfsrIsWrittenOnlyWhereTheTableSays :
    ∃ t, exec (.prngInit 0) { State.reset with lfsr := 0 } = .next t ∧ t.lfsr ≠ 0 :=
  ⟨_, rfl, by decide⟩
theorem test_witness_OnlyPrngNextReadsLfsr :
    (∃ t u, Instr.format (.randomize none) = .cmd ∧
      exec (.randomize none) { State.reset with lfsr := 0 } = .next t ∧
      exec (.randomize none) { issuedBuffer [1] with lfsr := 1 } = .next u) ∧
    ∃ t u, exec (.hdrType3 0) { issuedBuffer [1] with lfsr := 0 } = .next t ∧
      exec (.hdrType3 0) { issuedBuffer [1] with lfsr := 1 } = .next u :=
  ⟨⟨_, _, rfl, rfl, rfl⟩, _, _, rfl, rfl⟩
theorem test_witness_OperationsDependOnlyOnLfsr :
    (Instr.format .prngNext = .cmd ∧ (issuedBuffer [1]).lfsr = State.reset.lfsr ∧
      ∃ t, exec .prngNext (issuedBuffer [1]) = .next t) ∧
    (issuedFrame [1] 1).issued = { issuedFrame [1] 1 with result := .byte 0 }.issued ∧
      ∃ t, exec (.cobsCodeRun 0x01) (issuedFrame [1] 1) = .next t := ⟨⟨rfl, rfl, _, rfl⟩, rfl, _, rfl⟩

/-- EveryInstructionCompletes: the longest operand of a command, an absent one, and a row on the longest buffer that every
parameter admits. -/
theorem test_witness_EveryInstructionCompletes :
    instrWithinLenMax Config.params (.cksum (some (List.replicate 255 0)) 0) State.reset ∧
    instrWithinLenMax Config.params (.cobsEnc none 0) State.reset ∧
    instrWithinLenMax Config.params (.hdrType3 0) (issuedBuffer (List.replicate 254 0)) := by
  have h1 : ∀ b, instrWithinLenMax Config.params (.cksum (some b) 0) State.reset = withinLenMax Config.params b :=
    fun _ => rfl
  have h2 : ∀ b, instrWithinLenMax Config.params (.hdrType3 0) (issuedBuffer b)
      = withinLenMax Config.params (0x00 :: b) := fun _ => rfl
  rw [h1, h2]
  refine ⟨withinLenMax_of_small _ ?_, rfl, withinLenMax_of_small _ ?_⟩
  · rw [List.length_replicate]
  · rw [List.length_cons, List.length_replicate]

/-- OnlyLongSequencesAreRefused: parameters under which one byte too many is too long, for an operand and for a row. -/
theorem test_witness_OnlyLongSequencesAreRefused :
    instrWithinLenMax { testParams with lenMaxExtra := some 0 } (.parse (some (List.replicate 256 0)) true true)
      State.reset = false ∧
    instrWithinLenMax { testParams with lenMaxExtra := some 0 } .cobsCodeFullRun
      (issuedFrame (List.replicate 255 0) 0) = false := by decide +kernel
theorem test_witness_StepKeepsLfsrNonzero :
    State.seeded { issuedCommands [0x03] with lfsr := 1 } ∧
      ∃ t, step { issuedCommands [0x03] with lfsr := 1 } = .next t := ⟨rfl, _, rfl⟩
theorem test_witness_StepKeepsResultsOk :
    (issuedCommands [0x03]).resultsOk ∧ ∃ t, step (issuedCommands [0x03]) = .next t := ⟨rfl, _, rfl⟩
theorem test_witness_OperationsReturnOnlyTheirStatuses :
    (∀ i ∈ [Instr.parse none true true, .cobsParse none true true, .randCobsParse none true true],
      ∃ t, exec i State.reset = .next t ∧ resultStatus t.result = some .nullPointer) ∧
    (∀ i ∈ [Instr.buildOa 0 none 0, .buildCfg none none 0, .cobsBuildOa 0 none 0, .cobsBuildCfg none none 0,
        .randCobsBuildOa 0 none 0, .randCobsBuildCfg none none 0],
      ∃ t, exec i State.reset = .next t ∧ resultStatus t.result = some .nullPointer) ∧
    ∀ i ∈ [Instr.hdrOffsetArray 0, .hdrChannelValuePairs 0, .hdrConfig 0, .hdrType3 0, .hdrVersion1 0 0,
        .hdrVersion2 0 0, .hdrVersion3 0 0],
      ∃ t, exec i (issuedBuffer [1]) = .next t ∧ resultStatus t.result = some .packetTooShort := by
  simp only [List.mem_cons, List.not_mem_nil, or_false, forall_eq_or_imp, forall_eq]
  exact ⟨⟨⟨_, rfl, rfl⟩, ⟨_, rfl, rfl⟩, _, rfl, rfl⟩, ⟨⟨_, rfl, rfl⟩, ⟨_, rfl, rfl⟩, ⟨_, rfl, rfl⟩,
    ⟨_, rfl, rfl⟩, ⟨_, rfl, rfl⟩, _, rfl, rfl⟩, ⟨_, rfl, rfl⟩, ⟨_, rfl, rfl⟩, ⟨_, rfl, rfl⟩, ⟨_, rfl, rfl⟩,
    ⟨_, rfl, rfl⟩, ⟨_, rfl, rfl⟩, _, rfl, rfl⟩

/-- 0 to 255 bytes meet the hypothesis of every statement about a sequence: CksumFoldsStepOverBytes, CobsEncOutput,
CobsDecBound, RandomizeMasksTheInside (lengths 2 and 3 are the ends of its clauses), RandomizeIsAnInvolution,
CobsParseDecodesThenParses, RandCobsParseUnmasksThenParses. -/
theorem test_witness_sequences : ∀ n ∈ [0, 1, 2, 3, 255],
    withinLenMax Config.params (List.replicate n 0) := by
  intro n hn
  have h : n ≤ 255 := by revert n; decide
  exact withinLenMax_of_small _ (by rw [List.length_replicate]; exact h)
theorem test_witness_ChecksumStreams :
    ∃ f : Bytes → Byte → Byte, (∀ a b seed, f (a ++ b) seed = f b (f a seed)) ∧ ([0] : Bytes) ≠ [] :=
  ⟨fun _ seed => seed, fun _ _ _ => rfl, by decide⟩
theorem test_witness_SensitiveChecksumSeesOneByte :
    CkSens testParams.ckStep ∧ (0x00 : Byte) ≠ 0xFF := ⟨test_witness_sensitive, by decide⟩
theorem test_witness_DamagedPacketStatus :
    CkSens testParams.ckStep ∧ hdrVersion 0x00 = 0 ∧ ([0, 0x2A] : Bytes).length = payloadSize 0x00 ∧
      (0xD6 : Byte) = ck testParams [0x00, 0, 0x2A] 0 ∧
      -- payload, both ends; checksum; type
      ([0, 0x2A] : Bytes)[0]? ≠ some 1 ∧ ([0, 0x2A] : Bytes)[1]? ≠ some 0x2B ∧ (0x56 : Byte) ≠ 0xD6 ∧
      (0x10 : Byte) ≠ 0x00 ∧ hdrVersion 0x10 = 0 ∧ hdrSize 0x10 = hdrSize 0x00 ∧
      -- version, both ends; size, both ends
      hdrVersion 0x40 ≠ 0 ∧ hdrVersion 0xC0 ≠ 0 ∧ hdrVersion 0x01 = 0 ∧
      (hdrSize 0x00).toNat < (hdrSize 0x01).toNat ∧ (hdrSize 0x00).toNat < (hdrSize 0x0F).toNat :=
  ⟨test_witness_sensitive, by decide +kernel⟩
theorem test_witness_LfsrBitIsOneCycle : (1 : Bits7) ≠ 0 ∧ (127 : Bits7) ≠ 0 := by decide
theorem test_witness_KeystreamPeriod :
    (126 : Nat) < 127 ∧ keystream testParams 0 126 = keystream testParams 0 126 := ⟨by decide, rfl⟩

/-- SeededRunYieldsKeystream: nothing in between, and two bytes taken with operations in between that write no
`LFSR`. -/
theorem test_witness_SeededRunYieldsKeystream :
    (∃ s, exec (.prngInit 0) State.reset = .next s ∧ runKeepsStream [] s s) ∧
    ∃ s t, exec (.prngInit 0xD6) State.reset = .next s ∧
      runKeepsStream [.prngNext, .randomize none, .parse none true true, .prngNext] s t :=
  ⟨⟨_, rfl, rfl⟩, _, _, rfl, _, rfl, .inl rfl, _, rfl, .inr rfl, _, rfl, .inr rfl, _, rfl, .inl rfl, rfl⟩
theorem test_witness_SeededCommandsYieldKeystream :
    (issuedCommands [0x02, 0xD6, 0x03]).issued.format = .cmd ∧
      (issuedCommands [0x02, 0xD6, 0x03]).issued.bytes = 0x02 :: 0xD6 :: List.replicate (0 + 1) 0x03 := ⟨rfl, rfl⟩
theorem test_witness_ZeroLfsrStaysZero : { State.reset with lfsr := 0 }.lfsr = 0 := rfl

/-- The conditions of ParseTestsInOrder, clause by clause at both ends; the checksum of the last two is symbolic. -/
theorem test_witness_ParseTestsInOrder :
    ([0, 0] : Bytes).length < 3 ∧
    (3 ≤ ([0, 0, 0] : Bytes).length ∧ 64 ≤ (0x40 : Byte).toNat ∧ 64 ≤ (0xFF : Byte).toNat) ∧
    ((0x01 : Byte).toNat < 64 ∧ ([0, 0, 0] : Bytes).length < (0x01 : Byte).toNat % 16 + 3) ∧
    ((0x3F : Byte).toNat < 64 ∧ (List.replicate 17 (0 : Byte)).length < (0x3F : Byte).toNat % 16 + 3) ∧
    ((0x00 : Byte).toNat % 16 + 3 ≤ ([0, 0, 0] : Bytes).length ∧
      ∀ c : Byte, c + 1 ≠ c) ∧
    48 ≤ (0x30 : Byte).toNat ∧ 48 ≤ (0x3F : Byte).toNat ∧
      (0x3F : Byte).toNat % 16 + 3 ≤ (List.replicate 18 (0 : Byte)).length := by decide

/-- Lengths at both ends: 1 and 16 values, 2 and 17 payload bytes, a key of 0 and of 17 bytes. -/
theorem test_witness_packets :
    (1 ≤ ([7] : Bytes).length ∧ (List.replicate 16 (7 : Byte)).length ≤ 16) ∧
    (2 ≤ ([7, 8] : Bytes).length ∧ (List.replicate 17 (7 : Byte)).length ≤ 17) ∧
    ((0x00 : Byte) ∉ ([] : Bytes) ∧ 2 ≤ ([] : Bytes).length + 1 + ([7] : Bytes).length) ∧
    ((0x00 : Byte) ∉ List.replicate 16 (7 : Byte) ∧
      (List.replicate 16 (7 : Byte)).length + 1 + ([] : Bytes).length ≤ 17) ∧
    (0x00 : Byte) ∉ List.replicate 17 (7 : Byte) ∧ (List.replicate 17 (7 : Byte)).length ≤ 17 := by decide
theorem test_witness_ParseOfConcatenation : ([0x00, 0x00, 0x2A, 0xD6] : Bytes) ≠ [] ∧
    parseBuffer testParams (some [0x00, 0x00, 0x2A, 0xD6]) true true = (.none, [.setChannel 0 42]) := by
  decide +kernel
theorem test_witness_HeaderRowsRunParse :
    (issuedBuffer [0x00, 0x00]).issued.format = .hdr ∧ (issuedBuffer [0x00, 0x00]).issued.bytes = 0x00 :: [0x00] :=
  ⟨rfl, rfl⟩
theorem test_witness_CodeRowsRunCobsDec :
    (issuedFrame [0x02, 0x2A] 0).issued.format = .cobs ∧ (issuedFrame [0x02, 0x2A] 0).issued.bytes = 0x02 :: [0x2A] :=
  ⟨rfl, rfl⟩

/-- A buffer whose first packet is good behind its header, for each row and each end of `size`, alone and before
more. -/
theorem test_witness_HeaderRowsGatherEvents :
    ∀ t ∈ [(0 : BitVec 2), 1, 2], ∀ z ∈ [(0 : BitVec 4), 15], ∀ more ∈ [([] : Bytes), [0x00]],
    (List.replicate (z.toNat + 2) (7 : Byte)).length = z.toNat + 2 ∧
    ∃ s : State, s.issued.bytes = List.replicate (z.toNat + 2) 7 ++
        ck Config.params (mkHeader 0 t z :: List.replicate (z.toNat + 2) 7) 0 :: more ∧
      withinLenMax Config.params (0x00 :: s.issued.bytes) := by
  intro t _ z _ more hm
  have hl : more.length ≤ 1 := by revert more; decide
  refine ⟨List.length_replicate, issuedBuffer _, rfl, withinLenMax_of_small _ ?_⟩
  simp [issuedBuffer]
  have := z.isLt
  omega

/-- A good packet under any parameters, and the event it gives. -/
theorem test_witness_goodPackets : goodPackets true true [] [] ∧
    goodPackets true true (rawPacket Config.params 0x00 [0, 7]) [.setChannel 0 7] := by
  refine ⟨.inl ⟨rfl, rfl⟩, .inr ⟨by simp [rawPacket], ?_⟩⟩
  have h := parsePacket_payload (P := Config.params) (chEn := true) (cfgEn := true) (h := 0x00)
    (payload := [0, 7]) (more := []) rfl rfl rfl
  show parseBuffer Config.params (some (0x00 :: ([0, 7] ++ ck Config.params [0x00, 0, 7] 0 :: []))) true true = _
  rw [parseBuffer_cons, h]
  rfl

/-- Each clause of ErrorHeaderRowsEndTheParse at both ends of `size`: the fewest bytes a version is told of, a wrong
and the right checksum; and buffers short enough for every parameter. -/
theorem test_witness_ErrorHeaderRowsEndTheParse :
    3 ≤ (issuedBuffer [0, 0, 0]).issued.bytes.length ∧
    (∀ c : Byte, c + 1 ≠ c) ∧
    (∀ z ∈ [(0 : BitVec 4), 15], ∀ c : Byte, ∃ payload more, payload.length = z.toNat + 2 ∧
      (issuedBuffer (List.replicate (z.toNat + 2) 7 ++ [c])).issued.bytes = payload ++ c :: more) ∧
    withinLenMax Config.params (rawPacket Config.params 0x00 [0, 7] ++ encode (.hdrType3 15) ++ List.replicate 18 0) := by
  exact ⟨by decide, by decide, fun z _ c => ⟨_, [], List.length_replicate, rfl⟩, rfl⟩
theorem test_witness_ShortHeaderRowsEndTheParse :
    Instr.format (.hdrVersion3 3 15) = .hdr ∧ (issuedBuffer [0, 0]).issued.bytes.length < 3 ∧
    (3 ≤ (issuedBuffer [0, 0, 0]).issued.bytes.length ∧
      (issuedBuffer [0, 0, 0]).issued.bytes.length < (1 : BitVec 4).toNat + 3) ∧
    (issuedBuffer (List.replicate 17 0)).issued.bytes.length < (15 : BitVec 4).toNat + 3 ∧
      Instr.hdrType3 15 ∈ [Instr.hdrOffsetArray 15, .hdrChannelValuePairs 15, .hdrConfig 15, .hdrType3 15] := by
  decide

/-- BuildOaWritesPacket: too short, too long; capacity one too small and just enough, for 1 and for 16 values. -/
theorem test_witness_BuildOaWritesPacket :
    ([] : Bytes).length < 1 ∧ 16 < (List.replicate 17 (0 : Byte)).length ∧
    (3 < ([7] : Bytes).length + 3 ∧ ([7] : Bytes).length + 3 ≤ 4) ∧
    (18 < (List.replicate 16 (0 : Byte)).length + 3 ∧ (List.replicate 16 (0 : Byte)).length + 3 ≤ 19) := by
  decide
theorem test_witness_BuildCfgWritesPacket :
    ([] : Bytes).length + 1 + ([] : Bytes).length < 2 ∧
    17 < ([7] : Bytes).length + 1 + (List.replicate 16 (0 : Byte)).length ∧
    (2 ≤ ([] : Bytes).length + 1 + ([7] : Bytes).length ∧ 3 < 2 + 2 ∧ 2 + 2 ≤ 4) ∧
    ((List.replicate 16 (7 : Byte)).length + 1 + ([] : Bytes).length ≤ 17 ∧ 18 < 17 + 2 ∧ 17 + 2 ≤ 19) := by
  decide

/-- BuiltPacketsAreValid and ParseOfBuildRoundTrips: both builders succeed, at the least and the largest packet. -/
theorem test_witness_builds (s : State) :
    (∃ t out, exec (.buildOa 0 (some [7]) 4) s = .next t ∧ t.result = .built .none 4 out) ∧
    (∃ t out, exec (.buildOa 255 (some (List.replicate 16 7)) 19) s = .next t ∧ t.result = .built .none 19 out) ∧
    (∃ t out, exec (.buildCfg (some []) (some [7]) 4) s = .next t ∧ t.result = .built .none 4 out) ∧
    ∃ t out, exec (.buildCfg (some (List.replicate 16 7)) (some []) 19) s = .next t ∧
      t.result = .built .none 19 out :=
  ⟨⟨_, _, rfl, rfl⟩, ⟨_, _, rfl, rfl⟩, ⟨_, _, rfl, rfl⟩, _, _, rfl, rfl⟩
theorem test_witness_CobsDecInvertsEnc (s : State) :
    ([0x11] : Bytes) ≠ [] ∧ ([0x11] : Bytes).length + (([0x11] : Bytes).length + 253) / 254 ≤ 2 ∧
      withinLenMax Config.params [0x11] ∧ withinLenMax Config.params [0x02, 0x11] ∧
      (∃ t, exec (.cobsEnc (some [0x11]) 2) s = .next t ∧ t.result = .bytes [0x02, 0x11]) ∧
      ([0x02, 0x11] : Bytes).length - 1 ≤ 1 := ⟨by decide, by decide, rfl, rfl, ⟨_, rfl, rfl⟩, by decide⟩
theorem test_witness_CobsDecodeInvertsEncode : ([0x11] : Bytes) ≠ [] ∧
    testParams.cobsZeroBeforeDelim = false ∧
    decMax (cobsEncode [0x11] (encMax ([0x11] : Bytes).length)).length ≤ 1 ∧
    decMax (cobsEncode [0x11] (encMax ([0x11] : Bytes).length) ++ 0x00 :: []).length ≤ 2 := by decide
theorem test_witness_ZeroFreeFramesDecodeAlike : (0x00 : Byte) ∉ ([0x02, 0x2A] : Bytes) := by decide

/-- CodeRowsCopyTheirBlock: an empty block, the longest run, a full run, each at the end, before more and, for a run,
before a delimiter; and the capacity just enough. -/
theorem test_witness_CodeRowsCopyTheirBlock :
    (∀ s ∈ [issuedFrame [] 0, issuedFrame [0x02, 0x2A] 2, issuedFrame [0x00] 1],
      withinLenMax Config.params (0x00 :: s.issued.bytes) ∧ s.issued.bytes.length ≤ s.issued.cap) ∧
    ([] : Bytes).length + 1 ≤ (0x01 : Byte).toNat ∧ (List.replicate 253 (7 : Byte)).length + 1 ≤ (0xFE : Byte).toNat ∧
    ([] : Bytes).length + 1 = (0x01 : Byte).toNat ∧ (List.replicate 253 (7 : Byte)).length + 1 = (0xFE : Byte).toNat ∧
    (issuedFrame [0x02, 0x2A] 2).issued.bytes = [] ++ 0x02 :: [0x2A] ∧ (0x02 : Byte) ≠ 0x00 ∧
    (issuedFrame [0x00] 1).issued.bytes = [] ++ 0x00 :: [] ∧
    ([] : Bytes).length ≤ 254 ∧ (List.replicate 254 (7 : Byte)).length = 254 := by
  simp only [List.mem_cons, List.not_mem_nil, or_false, forall_eq_or_imp, forall_eq]
  exact ⟨⟨⟨rfl, by decide⟩, ⟨rfl, by decide⟩, rfl, by decide⟩, by decide, by decide +kernel, by decide,
    by decide +kernel, rfl, by decide, rfl, by decide, List.length_replicate⟩
theorem test_witness_DelimiterRowEndsTheFrame :
    withinLenMax Config.params (0x00 :: (issuedFrame [0x09] 0).issued.bytes) := rfl

/-- Both clauses of the parse composites: a frame that decodes to nothing, one that decodes to a byte, one that decodes to
three. -/
theorem test_witness_framed_parses :
    (withinLenMax Config.params [0x01] ∧ cobsDecode Config.params [0x01] (parseBufCap Config.params) = []) ∧
    (withinLenMax Config.params [0x02, 0x2A] ∧
      cobsDecode Config.params [0x02, 0x2A] (parseBufCap Config.params) = [0x2A]) ∧
    (withinLenMax Config.params [0x04, 1, 2, 3] ∧
      cobsDecode Config.params [0x04, 1, 2, 3] (parseBufCap Config.params) = [1, 2, 3]) ∧
    parseBufCap testParams + 1 < (List.replicate 21 (1 : Byte)).length := by
  have h := parseBufCap_ge Config.params
  refine ⟨⟨rfl, ?_⟩, ⟨rfl, ?_⟩, ⟨rfl, ?_⟩, by decide⟩
  · rw [cobsDecode_eq, if_neg (by simp)]; rfl
  · rw [cobsDecode_eq, if_neg (by simp; omega)]; rfl
  · rw [cobsDecode_eq, if_neg (by simp; omega)]; rfl

/-- The build composites: `good` false and true; capacity one too small and just enough. -/
theorem test_witness_framed_builds :
    decide (1 ≤ ([] : Bytes).length ∧ ([] : Bytes).length ≤ 16) = false ∧
    decide (1 ≤ ([7] : Bytes).length ∧ ([7] : Bytes).length ≤ 16) = true ∧
    decide (2 ≤ ([] ++ 0x00 :: [] : Bytes).length ∧ ([] ++ 0x00 :: [] : Bytes).length ≤ 17) = false ∧
    decide (2 ≤ ([] ++ 0x00 :: [7] : Bytes).length ∧ ([] ++ 0x00 :: [7] : Bytes).length ≤ 17) = true ∧
    4 < ([0, 7] : Bytes).length + 3 ∧ ([0, 7] : Bytes).length + 3 ≤ 5 := by decide

/-- FramedBuildParsesBack: all four framed builds succeed. -/
theorem test_witness_FramedBuildParsesBack (s : State) :
    (∃ t n frame, exec (.cobsBuildOa 0 (some [7]) 5) s = .next t ∧ t.result = .built .none n frame) ∧
    (∃ t n frame, exec (.randCobsBuildOa 0 (some [7]) 5) s = .next t ∧ t.result = .built .none n frame) ∧
    ((0x00 : Byte) ∉ ([] : Bytes) ∧
      ∃ t n frame, exec (.cobsBuildCfg (some []) (some [7]) 5) s = .next t ∧
        t.result = .built .none n frame) ∧
    ∃ t n frame, exec (.randCobsBuildCfg (some []) (some [7]) 5) s = .next t ∧
      t.result = .built .none n frame := by
  have key : ∀ (middle : Bytes → Bits7 → Bytes × Bits7) (raw : Built), raw.status = .none →
      (middle raw.out s.lfsr).1.length = 4 → ∃ n frame,
        builtResult (framedBuild Config.params middle raw 5 s.lfsr).1 = .built .none n frame := by
    intro middle raw hs hl
    have hne : cobsEncode (middle raw.out s.lfsr).1 5 ≠ [] := by
      unfold cobsEncode
      rw [if_neg]
      · exact cobsEncodeLoop_ne_nil _ _
      · rintro (h | h)
        · rw [h] at hl; simp at hl
        · rw [hl] at h; simp [encMax] at h
    obtain ⟨h, -⟩ | ⟨-, h, -⟩ | ⟨-, -, h⟩ := framedBuild_cases Config.params middle raw 5 s.lfsr
    · exact absurd hs h
    · exact absurd h hne
    · rw [h]; exact ⟨_, _, rfl⟩
  refine ⟨?_, ?_, ⟨by simp, ?_⟩, ?_⟩
  · obtain ⟨n, f, h⟩ := key plainMiddle (buildOa Config.params 0 (some [7]) Config.rawBufCap) rfl rfl
    exact ⟨_, n, f, rfl, h⟩
  · obtain ⟨n, f, h⟩ :=
      key (randomizeBytes Config.params) (buildOa Config.params 0 (some [7]) Config.rawBufCap) rfl rfl
    exact ⟨_, n, f, rfl, h⟩
  · obtain ⟨n, f, h⟩ := key plainMiddle (buildCfg Config.params (some []) (some [7]) Config.rawBufCap) rfl rfl
    exact ⟨_, n, f, rfl, h⟩
  · obtain ⟨n, f, h⟩ :=
      key (randomizeBytes Config.params) (buildCfg Config.params (some []) (some [7]) Config.rawBufCap) rfl rfl
    exact ⟨_, n, f, rfl, h⟩

end Sys2Proof.Machine
end

section
/-! Proofs of the statements about the scope (spec/00_scope.md section 5, R12): a step is one whole operation, and every
operation within `LEN_MAX` comes to its end. -/

namespace Sys2Proof.Machine

/-- Bytes that decode are run: of the two things `step_cases` leaves, the refusal is for bytes that do not. -/
theorem step_of_decode {s : State} {i : Instr} {rest : Bytes}
    (hd : decode s.issued.format s.issued.bytes = .ok (i, rest)) : step s = exec i (s.take rest) := by
  obtain ⟨i', rest', hd', hstep⟩ | ⟨e, he, -⟩ := step_cases s
  · obtain ⟨rfl, rfl⟩ : i' = i ∧ rest' = rest := by simpa [hd] using hd'.symm
    exact hstep
  · rw [hd] at he
    cases he

/-- An instruction whose sequences are within `LEN_MAX` is neither refused nor faults. -/
theorem exec_completes {i : Instr} {s : State} (h : instrWithinLenMax Config.params i s) :
    ∃ t, exec i s = .next t :=
  ⟨_, (exec_next_iff i s _).2 ⟨h, rfl⟩⟩

/-- What is left of what was issued depends on the instruction's format alone. -/
theorem exec_issued {i : Instr} {s t : State} (h : exec i s = .next t) :
    t.issued = issuedAfter i s.issued := by
  obtain ⟨-, rfl⟩ := (exec_next_iff i s t).1 h
  rfl

/-- Settles O6: the state with its bytes taken is `State.take`. -/
theorem stepRunsDecodedInstruction : Obligations.StepRunsDecodedInstruction :=
  fun _ _ _ hd => step_of_decode hd

/-- Settles O12: an instruction within `LEN_MAX` completes, and the next state's issue is `issuedAfter`. -/
theorem everyInstructionCompletes : Obligations.EveryInstructionCompletes := by
  intro i s hlen
  obtain ⟨t, ht⟩ := exec_completes hlen
  exact ⟨t, ht, exec_issued ht⟩

end Sys2Proof.Machine
end

section
/-! Proofs of the statements about the state (spec/10_state.md, R20, R21, R26): `LFSR` never falls to 0, an operation leaves
what is issued alone, and nothing but the operands and `LFSR` decides what comes of an instruction. -/

namespace Sys2Proof.Machine

/-! ### What an instruction can leave in `LFSR` -/

/-- A parse composite leaves the register as it was, or as its middle step leaves it. -/
theorem framedParse_reg (P : Params) (middle : Bytes → Bits7 → Bytes × Bits7) (frame : Buffer)
    (chEn cfgEn : Bool) (r : Bits7) :
    (framedParse P middle frame chEn cfgEn r).2 = r ∨
      ∃ raw, (framedParse P middle frame chEn cfgEn r).2 = (middle raw r).2 := by
  cases frame with
  | none => exact .inl rfl
  | some f =>
    obtain ⟨-, h⟩ | ⟨-, h⟩ := framedParse_cases P middle f chEn cfgEn r
    · exact .inl (congrArg Prod.snd h)
    · exact .inr ⟨_, congrArg Prod.snd h⟩

/-- A build composite leaves the register as it was, or as its middle step leaves it. -/
theorem framedBuild_reg (P : Params) (middle : Bytes → Bits7 → Bytes × Bits7) (raw : Built) (cap : Nat)
    (r : Bits7) :
    (framedBuild P middle raw cap r).2 = r ∨
      (framedBuild P middle raw cap r).2 = (middle raw.out r).2 := by
  obtain ⟨-, h⟩ | ⟨-, -, h⟩ | ⟨-, -, h⟩ := framedBuild_cases P middle raw cap r
  · exact .inl (congrArg Prod.snd h)
  · exact .inr (congrArg Prod.snd h)
  · exact .inr (congrArg Prod.snd h)

/-- The four things that can stand in `LFSR` after an instruction: what stood there, a loaded seed, the generator's next
state, or what a masking leaves (the writers of the table in R30). -/
theorem instrOutcome_reg_cases (P : Params) (issued : Issue) (r : Bits7) (i : Instr) :
    (instrOutcome P issued r i).2 = r ∨
    (∃ seed, (instrOutcome P issued r i).2 = lfsrLoad P seed) ∨
    (instrOutcome P issued r i).2 = (prngNext P r).2 ∨
    ∃ b, (instrOutcome P issued r i).2 = (randomizeBytes P b r).2 := by
  cases i with
  | prngInit seed => exact .inr (.inl ⟨seed, rfl⟩)
  | prngNext => exact .inr (.inr (.inl rfl))
  | randomize buf =>
    cases buf with
    | none => exact .inl rfl
    | some b => exact .inr (.inr (.inr ⟨b, rfl⟩))
  | cobsParse frame chEn cfgEn => exact .inl (framedParse_plain P frame chEn cfgEn r)
  | cobsBuildOa | cobsBuildCfg => exact .inl (framedBuild_plain P _ _ r)
  | randCobsParse frame chEn cfgEn =>
    exact (framedParse_reg P (randomizeBytes P) frame chEn cfgEn r).imp_right (.inr ∘ .inr)
  | randCobsBuildOa | randCobsBuildCfg =>
    exact (framedBuild_reg P (randomizeBytes P) _ _ r).imp_right fun h => .inr (.inr ⟨_, h⟩)
  | cksum b | cobsEnc b | cobsDec b => cases b <;> exact .inl rfl
  | _ => exact .inl rfl

/-- No seed loads 0, and neither a shift nor a masking leads from a non-zero register to 0. -/
theorem instrOutcome_ne_zero (P : Params) (issued : Issue) {r : Bits7} (i : Instr) (hr : r ≠ 0) :
    (instrOutcome P issued r i).2 ≠ 0 := by
  obtain h | ⟨seed, h⟩ | h | ⟨b, h⟩ := instrOutcome_reg_cases P issued r i <;> rw [h]
  · exact hr
  · exact lfsrLoad_ne_zero P seed
  · exact prngNext_ne_zero P hr
  · exact randomizeBytes_ne_zero P b hr

theorem State.seeded_iff (s : State) : s.seeded ↔ s.lfsr ≠ 0 := bne_iff_ne

theorem exec_keeps_seeded {i : Instr} {s t : State} (hs : s.seeded) (h : exec i s = .next t) : t.seeded := by
  obtain ⟨-, rfl⟩ := (exec_next_iff i s t).1 h
  exact (State.seeded_iff _).2 (instrOutcome_ne_zero Config.params s.issued i ((State.seeded_iff s).1 hs))

/-- Settles O14: a step runs one instruction on a state with the same `LFSR`, and no instruction writes 0 there. -/
theorem stepKeepsLfsrNonzero : Obligations.StepKeepsLfsrNonzero := by
  intro s t hs hstep
  obtain ⟨i, rest, -, hexec⟩ := step_next hstep
  exact exec_keeps_seeded (s := s.take rest) hs hexec

/-! ### What an instruction leaves unchanged, and what it reads -/

theorem issuedAfter_of_cmd {i : Instr} (hf : i.format = .cmd) (issued : Issue) : issuedAfter i issued = issued :=
  if_pos hf

/-- Settles O7: the next state is `exec_next_iff`'s, in which an operation's issue is the one before. -/
theorem operationsChangeOnlyLfsrAndResult : Obligations.OperationsChangeOnlyLfsrAndResult := by
  intro i s t hf h
  obtain ⟨-, rfl⟩ := (exec_next_iff i s t).1 h
  rw [issuedAfter_of_cmd hf]
  exact ⟨_, _, rfl⟩

/-- The results and the new `LFSR` read what is issued for a row only, whose operands it is. -/
theorem instrOutcome_congr_issued (P : Params) {a b : Issue} (r : Bits7) {i : Instr}
    (h : i.format = .cmd ∨ a = b) : instrOutcome P a r i = instrOutcome P b r i := by
  obtain hf | rfl := h
  · cases i with
    | hdrOffsetArray | hdrChannelValuePairs | hdrConfig | hdrType3 | hdrVersion1 | hdrVersion2 | hdrVersion3
    | cobsCodeDelimiter | cobsCodeRun | cobsCodeFullRun => cases hf
    | cksum b | cobsEnc b | cobsDec b | randomize b => cases b <;> rfl
    | _ => rfl
  · rfl

/-- The bound `LEN_MAX` reads what is issued for a row only. -/
theorem instrWithinLenMax_congr_issued (P : Params) {s₁ s₂ : State} {i : Instr}
    (h : i.format = .cmd ∨ s₁.issued = s₂.issued) : instrWithinLenMax P i s₁ = instrWithinLenMax P i s₂ := by
  cases i with
  | hdrOffsetArray | hdrChannelValuePairs | hdrConfig | hdrType3 | hdrVersion1 | hdrVersion2 | hdrVersion3
  | cobsCodeDelimiter | cobsCodeRun | cobsCodeFullRun =>
    obtain hf | hi := h
    · cases hf
    · exact congrArg (fun issued : Issue => withinLenMax P (0x00 :: issued.bytes)) hi
  | _ => rfl

/-- Settles O11: the bound and the outcome are the same in both states. -/
theorem operationsDependOnlyOnLfsr : Obligations.OperationsDependOnlyOnLfsr := by
  intro i s₁ s₂ t₁ hissued hlfsr h
  obtain ⟨hlen, rfl⟩ := (exec_next_iff i s₁ t₁).1 h
  have hout : instrOutcome Config.params s₂.issued s₂.lfsr i = instrOutcome Config.params s₁.issued s₁.lfsr i := by
    rw [← hlfsr, instrOutcome_congr_issued Config.params s₁.lfsr hissued]
  rw [instrWithinLenMax_congr_issued Config.params hissued] at hlen
  exact ⟨_, (exec_next_iff i s₂ _).2 ⟨hlen, rfl⟩, congrArg Prod.fst hout, congrArg Prod.snd hout⟩

end Sys2Proof.Machine
end

section
/-! Proofs of the statements about what the host hands in and takes out (spec/20_memory.md, R40, R47, R57): the results have
the spec's shape, only PRNG_NEXT's depend on `LFSR`, and only a sequence longer than `LEN_MAX` is refused. -/

namespace Sys2Proof.Machine

/-! ### Refusals -/

/-- Settles O13: of the two outcomes of `exec_eq`, the refusal is the one for a sequence longer than `LEN_MAX`. -/
theorem onlyLongSequencesAreRefused : Obligations.OnlyLongSequencesAreRefused := by
  intro i s r
  rw [exec_eq]
  cases hlen : instrWithinLenMax Config.params i s with
  | true => exact ⟨nofun, fun h => nomatch h.2⟩
  | false => exact ⟨fun h => ⟨(Host.Outcome.refused.inj h).symm, rfl⟩, fun h => congrArg Host.Outcome.refused h.1.symm⟩

/-! ### Which results read `LFSR` -/

/-- Masked bytes come of the seed in the last byte, never of what `LFSR` held. -/
theorem randomizeBytes_out_reg (P : Params) (buf : Bytes) (r r' : Bits7) :
    (randomizeBytes P buf r).1 = (randomizeBytes P buf r').1 := by
  unfold randomizeBytes
  split <;> rfl

/-- The results of a parse composite read the register only if its middle step's output does. -/
theorem framedParse_parsed_reg (P : Params) {middle : Bytes → Bits7 → Bytes × Bits7} (frame : Buffer)
    (chEn cfgEn : Bool) {r r' : Bits7} (hm : ∀ raw, (middle raw r).1 = (middle raw r').1) :
    (framedParse P middle frame chEn cfgEn r).1 = (framedParse P middle frame chEn cfgEn r').1 := by
  cases frame with
  | none => rfl
  | some f =>
    simp only [framedParse, hm]
    split <;> rfl

/-- The results of a build composite read the register only if its middle step's output does. -/
theorem framedBuild_built_reg (P : Params) {middle : Bytes → Bits7 → Bytes × Bits7} (raw : Built) (cap : Nat)
    {r r' : Bits7} (hm : (middle raw.out r).1 = (middle raw.out r').1) :
    (framedBuild P middle raw cap r).1 = (framedBuild P middle raw cap r').1 := by
  simp only [framedBuild, hm]
  split
  · rfl
  · split <;> rfl

/-- No results but PRNG_NEXT's read the register: a composite's do not, since its middle step's output does not. -/
theorem instrOutcome_result_reg (P : Params) (issued : Issue) (r r' : Bits7) {i : Instr} (h : i ≠ .prngNext) :
    (instrOutcome P issued r i).1 = (instrOutcome P issued r' i).1 := by
  cases i with
  | prngNext => exact absurd rfl h
  | randomize buf =>
    cases buf with
    | none => rfl
    | some b => exact congrArg Result.bytes (randomizeBytes_out_reg P b r r')
  | cobsParse frame chEn cfgEn =>
    exact congrArg parsedResult (framedParse_parsed_reg P frame chEn cfgEn fun _ => rfl)
  | randCobsParse frame chEn cfgEn =>
    exact congrArg parsedResult
      (framedParse_parsed_reg P frame chEn cfgEn fun raw => randomizeBytes_out_reg P raw r r')
  | cobsBuildOa | cobsBuildCfg => exact congrArg builtResult (framedBuild_built_reg P _ _ rfl)
  | randCobsBuildOa | randCobsBuildCfg =>
    exact congrArg builtResult (framedBuild_built_reg P _ _ (randomizeBytes_out_reg P _ r r'))
  | cksum b | cobsEnc b | cobsDec b => cases b <;> rfl
  | _ => rfl

/-- Settles O10: the first state's issue may be put for the second's, and then only the register differs. -/
theorem onlyPrngNextReadsLfsr : Obligations.OnlyPrngNextReadsLfsr := by
  intro i s₁ s₂ t₁ t₂ hi hissued h₁ h₂
  obtain ⟨-, rfl⟩ := (exec_next_iff i s₁ t₁).1 h₁
  obtain ⟨-, rfl⟩ := (exec_next_iff i s₂ t₂).1 h₂
  calc (instrOutcome Config.params s₁.issued s₁.lfsr i).1
      = (instrOutcome Config.params s₂.issued s₁.lfsr i).1 := by rw [instrOutcome_congr_issued _ _ hissued]
    _ = (instrOutcome Config.params s₂.issued s₂.lfsr i).1 := instrOutcome_result_reg _ _ _ _ hi

/-! ### The shape of a parse's results -/

theorem wrapperStatus_cases (c : WrapperCode) : wrapperStatus c = .invalidSize ∨ wrapperStatus c = .unknown := by
  cases c
  · exact .inl rfl
  · exact .inr rfl

theorem resultOk_parsed {p : Status × List Event} (hst : p.1 ∈ parseStatuses ∨ p.1 = .unknown)
    (hev : ∀ e ∈ p.2, eventOk e) : resultOk (parsedResult p) := by
  simpa [parsedResult, resultOk] using And.intro hst hev

theorem eventOk_of_lengths {e : Event} (h : ∀ k kl v vl, e = .setConfig k kl v vl →
    k.length = kl.toNat ∧ v.length = vl.toNat ∧ k.length ≤ 17 ∧ v.length ≤ 16) : eventOk e := by
  cases e with
  | setChannel => rfl
  | setConfig k kl v vl =>
    obtain ⟨hk, hv, hk17, hv16⟩ := h k kl v vl rfl
    simp [eventOk, ← hk, ← hv, hk17, hv16]

/-- A good packet's events are well formed, since its payload has at most 17 bytes. -/
theorem parsePacket_events_ok {P : Params} {chEn cfgEn : Bool} {h : Byte} {tail rest : Bytes}
    {ev : List Event} (hp : parsePacket P chEn cfgEn h tail = .passes ev rest) : ∀ e ∈ ev, eventOk e := by
  obtain ⟨-, -, -, hev, -⟩ := parsePacket_passes hp
  have hlen : (tail.take (payloadSize h)).length ≤ 17 :=
    (List.length_take_le _ _).trans (payloadSize_le h)
  exact fun e he => eventOk_of_lengths (payloadEvents_lengths hlen hev e he)

/-- PARSE returns a status of R232 and well-formed events. -/
theorem parseBuffer_ok (P : Params) (buf : Buffer) (chEn cfgEn : Bool) :
    (parseBuffer P buf chEn cfgEn).1 ∈ parseStatuses ∧ ∀ e ∈ (parseBuffer P buf chEn cfgEn).2, eventOk e := by
  cases buf with
  | none => exact ⟨show Status.nullPointer ∈ parseStatuses by decide, nofun⟩
  | some b =>
    induction b using parseBuffer_induction (P := P) (chEn := chEn) (cfgEn := cfgEn) with
    | empty =>
      refine ⟨?_, nofun⟩
      show emptyBufStatus P ∈ parseStatuses
      unfold emptyBufStatus
      split <;> decide
    | packet h tail ih =>
      rw [parseBuffer_cons]
      cases hp : parsePacket P chEn cfgEn h tail with
      | fails st =>
        have hst := parsePacket_fails hp
        simp only [List.mem_cons, List.not_mem_nil, or_false] at hst
        exact ⟨by simp only [parseStatuses, List.mem_cons]; tauto, nofun⟩
      | passes ev rest =>
        have hev := parsePacket_events_ok hp
        by_cases hr : rest = []
        · simpa [hr] using And.intro (show Status.none ∈ parseStatuses by decide) hev
        · obtain ⟨hst, hrest⟩ := ih ev rest hp hr
          simp only [if_neg hr]
          exact ⟨hst, fun e he => (List.mem_append.1 he).elim (hev e) (hrest e)⟩

theorem resultOk_parseBuffer (P : Params) (buf : Buffer) (chEn cfgEn : Bool) :
    resultOk (parsedResult (parseBuffer P buf chEn cfgEn)) :=
  have ⟨hst, hev⟩ := parseBuffer_ok P buf chEn cfgEn
  resultOk_parsed (.inl hst) hev

/-- A parse composite ends with a parse, or before it with no events. -/
theorem resultOk_framedParse (P : Params) (middle : Bytes → Bits7 → Bytes × Bits7) (frame : Buffer)
    (chEn cfgEn : Bool) (r : Bits7) : resultOk (parsedResult (framedParse P middle frame chEn cfgEn r).1) := by
  cases frame with
  | none => rfl
  | some f =>
    obtain ⟨-, h⟩ | ⟨-, h⟩ := framedParse_cases P middle f chEn cfgEn r <;> rw [h]
    · refine resultOk_parsed ?_ nofun
      exact (wrapperStatus_cases P.errDecodeFail).imp_left fun hw => by simp [hw, parseStatuses]
    · exact resultOk_parseBuffer P _ chEn cfgEn

/-! ### The shape of a build's results -/

/-- What a packet build hands back: a packet of `PACKET_MIN` to `PACKET_MAX` bytes, or an error of R232 and no output. -/
def Built.PacketOrError (b : Built) : Prop :=
  (b.status = .none ∧ b.sizeOut = b.out.length ∧ 4 ≤ b.out.length ∧ b.out.length ≤ 19) ∨
    (b.status ≠ .none ∧ b.status ∈ buildStatuses ∧ b.out = [])

theorem Built.packetOrError_error {st : Status} (n : Nat) (hne : st ≠ .none) (hst : st ∈ buildStatuses) :
    Built.PacketOrError ⟨st, n, []⟩ :=
  .inr ⟨hne, hst, rfl⟩

theorem resultOk_built_error {st : Status} {n : Nat} (hne : st ≠ .none)
    (hst : st ∈ buildStatuses ∨ st = .unknown) : resultOk (builtResult ⟨st, n, []⟩) := by
  simpa [builtResult, resultOk, hne] using hst

theorem resultOk_built_success {out : Bytes} (hmin : 4 ≤ out.length) (hmax : out.length ≤ 20) :
    resultOk (builtResult ⟨.none, out.length, out⟩) := by
  have hmax' : out.length ≤ Config.framedPacketMax := hmax
  simp [builtResult, resultOk, buildStatuses, hmin, hmax']

theorem resultOk_of_packetOrError {b : Built} (h : b.PacketOrError) : resultOk (builtResult b) := by
  obtain ⟨status, sizeOut, out⟩ := b
  obtain ⟨rfl, hsize, hmin, hmax⟩ | ⟨hne, hst, rfl⟩ := h
  · obtain rfl : sizeOut = out.length := hsize
    exact resultOk_built_success hmin (Nat.le_succ_of_le hmax)
  · exact resultOk_built_error hne (.inl hst)

/-- The builders' common end makes a packet of any body of 3 to 18 bytes, one byte longer, or overflows. -/
theorem finishBuild_packetOrError (P : Params) {body : Bytes} (cap : Nat) (hmin : 3 ≤ body.length)
    (hmax : body.length ≤ 18) : (finishBuild P body cap).PacketOrError := by
  obtain ⟨-, h⟩ | ⟨-, h⟩ := finishBuild_cases P body cap <;> rw [h]
  · exact Built.packetOrError_error _ nofun (by decide)
  · have hlen : (body ++ [ck P body 0]).length = body.length + 1 := List.length_append
    exact .inl ⟨rfl, hlen.symm, by simp only [hlen]; omega, by simp only [hlen]; omega⟩

theorem buildOa_packetOrError (P : Params) (offset : Byte) (values : Buffer) (cap : Nat) :
    (buildOa P offset values cap).PacketOrError := by
  cases values with
  | none => exact Built.packetOrError_error _ nofun (by decide)
  | some values =>
    obtain ⟨-, h⟩ | ⟨hmin, hmax, h⟩ := buildOa_cases P offset values cap <;> rw [h]
    · exact Built.packetOrError_error _ nofun (by decide)
    · apply finishBuild_packetOrError <;> simp only [List.length_cons] <;> omega

theorem buildCfg_packetOrError (P : Params) (key values : Buffer) (cap : Nat) :
    (buildCfg P key values cap).PacketOrError := by
  match key, values with
  | none, _ => exact Built.packetOrError_error _ nofun (by decide)
  | some _, none => exact Built.packetOrError_error _ nofun (by decide)
  | some key, some values =>
    obtain ⟨-, h⟩ | ⟨hmin, hmax, h⟩ := buildCfg_cases P key values cap <;> rw [h]
    · exact Built.packetOrError_error _ nofun (by decide)
    · apply finishBuild_packetOrError <;> simp only [List.length_cons, List.length_append] <;> omega

/-! ### Build composites -/

theorem randomizeBytes_length (P : Params) (buf : Bytes) (r : Bits7) :
    (randomizeBytes P buf r).1.length = buf.length := by
  unfold randomizeBytes
  split
  · simp [maskBytes_length]
  · rfl

/-- Framing at most 254 bytes adds exactly one byte (R80). -/
theorem cobsEncode_length {src : Bytes} {cap : Nat} (hne : cobsEncode src cap ≠ []) (hlen : src.length ≤ 254) :
    (cobsEncode src cap).length = src.length + 1 := by
  unfold cobsEncode at hne ⊢
  split
  · rename_i h
    exact absurd (if_pos h) hne
  · obtain ⟨hmin, hmax⟩ := cobsEncodeLoop_length src []
    have := hmax (.inl (by decide))
    simp only [List.length_nil] at *
    omega

/-- A build composite hands back a frame of 5 to 20 bytes, when its middle step keeps the packet's length, or an error
and no output. -/
theorem resultOk_framedBuild (P : Params) {middle : Bytes → Bits7 → Bytes × Bits7} {raw : Built} (cap : Nat)
    (r : Bits7) (hraw : raw.PacketOrError) (hm : (middle raw.out r).1.length = raw.out.length) :
    resultOk (builtResult (framedBuild P middle raw cap r).1) := by
  obtain ⟨hne, h⟩ | ⟨-, -, h⟩ | ⟨hnone, hframe, h⟩ := framedBuild_cases P middle raw cap r <;> rw [h]
  · obtain ⟨hnone, -⟩ | ⟨-, hst, -⟩ := hraw
    · exact absurd hnone hne
    · exact resultOk_built_error hne (.inl hst)
  · obtain hw | hw := wrapperStatus_cases P.errEncodeFail <;> rw [hw]
    · exact resultOk_built_error nofun (.inl (by decide))
    · exact resultOk_built_error nofun (.inr rfl)
  · obtain ⟨-, -, hmin, hmax⟩ | ⟨hne, -⟩ := hraw
    · have hlen := cobsEncode_length hframe (by omega)
      exact resultOk_built_success (by omega) (by omega)
    · exact absurd hnone hne

/-! ### The invariant -/

/-- Every instruction's results have the spec's shape. -/
theorem resultOk_instrOutcome (P : Params) (issued : Issue) (r : Bits7) (i : Instr) :
    resultOk (instrOutcome P issued r i).1 := by
  cases i with
  | cksum b | cobsEnc b | cobsDec b | randomize b => cases b <;> rfl
  | prngInit | prngNext | cobsCodeDelimiter | cobsCodeRun | cobsCodeFullRun => rfl
  | parse | hdrOffsetArray | hdrChannelValuePairs | hdrConfig | hdrType3 | hdrVersion1 | hdrVersion2
  | hdrVersion3 => exact resultOk_parseBuffer P _ _ _
  | cobsParse | randCobsParse => exact resultOk_framedParse P _ _ _ _ r
  | buildOa offset values cap => exact resultOk_of_packetOrError (buildOa_packetOrError P offset values cap)
  | buildCfg key values cap => exact resultOk_of_packetOrError (buildCfg_packetOrError P key values cap)
  | cobsBuildOa offset values cap =>
    exact resultOk_framedBuild P cap r (buildOa_packetOrError P offset values _) rfl
  | cobsBuildCfg key values cap =>
    exact resultOk_framedBuild P cap r (buildCfg_packetOrError P key values _) rfl
  | randCobsBuildOa offset values cap =>
    exact resultOk_framedBuild P cap r (buildOa_packetOrError P offset values _) (randomizeBytes_length P _ r)
  | randCobsBuildCfg key values cap =>
    exact resultOk_framedBuild P cap r (buildCfg_packetOrError P key values _) (randomizeBytes_length P _ r)

theorem exec_resultsOk {i : Instr} {s t : State} (h : exec i s = .next t) : t.resultsOk := by
  obtain ⟨-, rfl⟩ := (exec_next_iff i s t).1 h
  exact resultOk_instrOutcome Config.params s.issued s.lfsr i

/-- Settles O15: a step that comes to a next state runs an instruction, whose results have the shape whatever stood there
before. -/
theorem stepKeepsResultsOk : Obligations.StepKeepsResultsOk := by
  intro s t _ hstep
  obtain ⟨i, rest, -, hexec⟩ := step_next hstep
  exact exec_resultsOk hexec

end Sys2Proof.Machine
end

section
/-! Proofs of the statements about encodings (spec/30_encoding.md, R71, R79, R87, R88, R92): what is written reads back,
what is read was written, and codes that select no operation are refused. -/

namespace Sys2Proof

/-! ### Operand lists: what is written reads back -/

theorem takeParse_written (mk : Buffer → Bool → Bool → Instr) {b : Buffer} (hb : bufferFits b) (chEn cfgEn : Bool)
    (rest : Bytes) :
    takeParse mk (bufferBytes b ++ [boolByte chEn, boolByte cfgEn] ++ rest) = .ok (mk b chEn cfgEn, rest) := by
  rw [List.append_assoc, takeParse, takeBuffer_bufferBytes b _ hb]
  cases chEn <;> cases cfgEn <;> rfl

theorem takeFramer_written (mk : Buffer → Nat → Instr) {b : Buffer} {cap : Nat} (h : bufferFits b && cap < 256)
    (rest : Bytes) : takeFramer mk (bufferBytes b ++ [capByte cap] ++ rest) = .ok (mk b cap, rest) := by
  obtain ⟨hb, hcap⟩ : bufferFits b ∧ cap < 256 := by simpa using h
  rw [List.append_assoc, takeFramer, takeBuffer_bufferBytes b _ hb]
  exact congrArg (· >>= fun p => .ok (mk b p.1, p.2)) (takeCap_capByte cap rest hcap)

theorem takeBuildOa_written (mk : Byte → Buffer → Nat → Instr) (offset : Byte) {b : Buffer} {cap : Nat}
    (h : bufferFits b && cap < 256) (rest : Bytes) :
    takeBuildOa mk (offset :: bufferBytes b ++ [capByte cap] ++ rest) = .ok (mk offset b cap, rest) :=
  takeFramer_written (mk offset) h rest

theorem takeBuildCfg_written (mk : Buffer → Buffer → Nat → Instr) {key values : Buffer} {cap : Nat}
    (h : bufferFits key && bufferFits values && cap < 256) (rest : Bytes) :
    takeBuildCfg mk (bufferBytes key ++ bufferBytes values ++ [capByte cap] ++ rest)
      = .ok (mk key values cap, rest) := by
  obtain ⟨⟨hkey, hvalues⟩, hcap⟩ : (bufferFits key ∧ bufferFits values) ∧ cap < 256 := by simpa using h
  rw [List.append_assoc, List.append_assoc, takeBuildCfg, takeBuffer_bufferBytes key _ hkey, ← List.append_assoc]
  exact takeFramer_written (mk key) (by simp [hvalues, hcap]) rest

/-! ### Decoding what was encoded -/

/-- A code byte other than the delimiter and the full run's is a run's. -/
theorem decodeCode_run {code : Byte} (h : (Instr.cobsCodeRun code).wellFormed) :
    decodeCode code = .cobsCodeRun code := by
  obtain ⟨h0, hff⟩ : code ≠ 0x00 ∧ code ≠ 0xFF := by simpa [Instr.wellFormed] using h
  rw [decodeCode, if_neg h0, if_neg hff]

/-- Settles O1: a command's operand list reads back as it was written, a header or code byte has one row. -/
theorem decodeEncodeAgree : Obligations.DecodeEncodeAgree := by
  intro i rest hwf hfits
  cases i with
  | cksum b seed =>
    show (takeBuffer (bufferBytes b ++ [seed] ++ rest) >>= _) = _
    rw [List.append_assoc, takeBuffer_bufferBytes b _ hfits]
    rfl
  | randomize b =>
    show (takeBuffer (bufferBytes b ++ rest) >>= _) = _
    rw [takeBuffer_bufferBytes b _ hfits]
    rfl
  | prngInit | prngNext => rfl
  | parse | cobsParse | randCobsParse => exact takeParse_written _ hfits _ _ rest
  | buildOa | cobsBuildOa | randCobsBuildOa => exact takeBuildOa_written _ _ hfits rest
  | buildCfg | cobsBuildCfg | randCobsBuildCfg => exact takeBuildCfg_written _ hfits rest
  | cobsEnc | cobsDec => exact takeFramer_written _ hfits rest
  | hdrOffsetArray | hdrChannelValuePairs | hdrConfig | hdrType3 | hdrVersion1 | hdrVersion2 | hdrVersion3 =>
    exact congrArg (fun i => Except.ok (i, rest)) (decodeHeader_mkHeader _ _ _)
  | cobsCodeDelimiter | cobsCodeFullRun => rfl
  | cobsCodeRun code => exact congrArg (fun i => Except.ok (i, rest)) (decodeCode_run hwf)

/-- Settles O3: the bytes are the encodings of the instructions they name. -/
theorem workedCommandBytesDecode : Obligations.WorkedCommandBytesDecode :=
  ⟨decodeEncodeAgree (.buildOa 0x00 (some [0x2A]) 19) [] rfl rfl,
    decodeEncodeAgree (.parse (some [0x00, 0x00, 0x2A, 0xD6]) true true) [] rfl rfl,
    decodeEncodeAgree (.randCobsBuildCfg (some [0x42, 0x61, 0x73, 0x65]) (some [0x10]) 20) [] rfl rfl,
    decodeEncodeAgree (.prngInit 0xD6) [] rfl rfl, decodeEncodeAgree (.hdrConfig 4) [] rfl rfl,
    decodeEncodeAgree .cobsCodeFullRun [] rfl rfl⟩

/-! ### Encoding what was decoded -/

/-- The operation code and the operands that decode are those of the instruction read. -/
theorem decodeOperands_read {code : Byte} {bytes rest : Bytes} {i : Instr}
    (h : decodeOperands code bytes = .ok (i, rest)) :
    encode i ++ rest = code :: bytes ∧ i.format = .cmd ∧ i.fitsCommand := by
  have hcode : ∀ n, code.toNat = n → code = BitVec.ofNat 8 n := by rintro _ rfl; simp
  unfold decodeOperands at h
  -- case `h_n` is operation code `n` of R87
  split at h
  case h_1 hn =>
    obtain rfl := hcode _ hn
    obtain ⟨⟨b, r⟩, hb, h⟩ := except_bind_inv h
    obtain ⟨⟨seed, r'⟩, hseed, h⟩ := except_bind_inv h
    cases h
    obtain ⟨rfl, hfits⟩ := takeBuffer_inv hb
    obtain rfl := takeByte_inv hseed
    exact ⟨by simp [encode], rfl, hfits⟩
  case h_2 hn =>
    obtain rfl := hcode _ hn
    obtain ⟨⟨seed, r⟩, hseed, h⟩ := except_bind_inv h
    cases h
    obtain rfl := takeByte_inv hseed
    exact ⟨rfl, rfl, rfl⟩
  case h_3 hn =>
    obtain rfl := hcode _ hn
    cases h
    exact ⟨rfl, rfl, rfl⟩
  case h_12 hn =>
    obtain rfl := hcode _ hn
    obtain ⟨⟨b, r⟩, hb, h⟩ := except_bind_inv h
    cases h
    obtain ⟨rfl, hfits⟩ := takeBuffer_inv hb
    exact ⟨rfl, rfl, hfits⟩
  case h_4 hn | h_9 hn | h_13 hn =>
    obtain rfl := hcode _ hn
    obtain ⟨b, chEn, cfgEn, rfl, hb, rfl⟩ := takeParse_inv h
    exact ⟨by simp [encode], rfl, hb⟩
  case h_5 hn | h_10 hn | h_14 hn =>
    obtain rfl := hcode _ hn
    obtain ⟨offset, b, cap, rfl, hb, hcap, rfl⟩ := takeBuildOa_inv h
    exact ⟨by simp [encode], rfl, by simp [Instr.fitsCommand, hb, hcap]⟩
  case h_6 hn | h_11 hn | h_15 hn =>
    obtain rfl := hcode _ hn
    obtain ⟨key, values, cap, rfl, hkey, hvalues, hcap, rfl⟩ := takeBuildCfg_inv h
    exact ⟨by simp [encode], rfl, by simp [Instr.fitsCommand, hkey, hvalues, hcap]⟩
  case h_7 hn | h_8 hn =>
    obtain rfl := hcode _ hn
    obtain ⟨b, cap, rfl, hb, hcap, rfl⟩ := takeFramer_inv h
    exact ⟨by simp [encode], rfl, by simp [Instr.fitsCommand, hb, hcap]⟩
  case h_16 => cases h

/-- Settles O2, format by format: a command by its operands, a header or code byte by its row. -/
theorem encodeOfDecodedIsInput : Obligations.EncodeOfDecodedIsInput := by
  intro f bytes rest i h
  match f, bytes with
  | _, [] => cases h
  | .cmd, code :: operands => exact decodeOperands_read h
  | .hdr, header :: tail =>
    cases h
    obtain ⟨henc, hformat, hfits⟩ := encode_decodeHeader header
    exact ⟨by rw [henc]; rfl, hformat, hfits⟩
  | .cobs, code :: tail =>
    cases h
    obtain ⟨henc, hformat, hfits⟩ := encode_decodeCode code
    exact ⟨by rw [henc]; rfl, hformat, hfits⟩

/-! ### Codes that select no operation -/

/-- The fifteen operations have the codes 1 to 15 (R87, R88). -/
theorem decodeOperands_unassigned {code : Byte} (h : code = 0x00 ∨ 0x10 ≤ code.toNat) (bytes : Bytes) :
    decodeOperands code bytes = .error (.noSuchOperation code) := by
  have hcode : code.toNat = 0 ∨ 16 ≤ code.toNat := h.imp_left (congrArg BitVec.toNat)
  unfold decodeOperands
  split
  case h_16 => rfl
  all_goals omega

/-! ### The header's fields as numbers -/

theorem hdrVersion_toNat (h : Byte) : (hdrVersion h).toNat = h.toNat / 64 := by
  have := h.isLt
  simp only [hdrVersion, BitVec.extractLsb'_toNat, Nat.shiftRight_eq_div_pow]
  omega

theorem hdrType_toNat (h : Byte) : (hdrType h).toNat = h.toNat / 16 % 4 := by
  simp only [hdrType, BitVec.extractLsb'_toNat, Nat.shiftRight_eq_div_pow]

theorem hdrSize_toNat (h : Byte) : (hdrSize h).toNat = h.toNat % 16 := by
  simp only [hdrSize, BitVec.extractLsb'_toNat, Nat.shiftRight_zero]

/-- The three fields' number is below 256, so none of it is lost. -/
theorem mkHeader_toNat (v t : BitVec 2) (z : BitVec 4) :
    (mkHeader v t z).toNat = v.toNat * 64 + t.toNat * 16 + z.toNat := by
  have hv := v.isLt
  have ht := t.isLt
  have hz := z.isLt
  rw [mkHeader, BitVec.toNat_ofNat]
  omega

/-- Settles O5: the fields' numbers, and the byte made of them. -/
theorem headerFieldsAreTheHeadersBits : Obligations.HeaderFieldsAreTheHeadersBits :=
  ⟨fun h => ⟨hdrVersion_toNat h, hdrType_toNat h, hdrSize_toNat h, mkHeader_fields h⟩, mkHeader_toNat⟩

end Sys2Proof

namespace Sys2Proof.Machine

/-- Bytes that are no instruction are refused, and by the decoder's name for them. -/
theorem step_of_decode_error {s : State} {e : DecodeError} (hd : decode s.issued.format s.issued.bytes = .error e) :
    step s = .refused (.undecodable e) := by
  obtain ⟨i, rest, hd', -⟩ | ⟨e', he, hstep⟩ := step_cases s
  · rw [hd] at hd'
    cases hd'
  · obtain rfl : e' = e := by simpa [hd] using he.symm
    exact hstep

/-- Settles O4: such a code decodes to an error, and a step on bytes that do not decode refuses. -/
theorem unassignedOperationCodesAreRefused : Obligations.UnassignedOperationCodesAreRefused := by
  intro code rest s hcode hformat hbytes
  refine step_of_decode_error ?_
  rw [hformat, hbytes]
  exact decodeOperands_unassigned hcode rest

end Sys2Proof.Machine
end

section
/-! Proof of the statement about command bytes of the generator (spec/30_encoding.md, R92; spec/41_prng.md, R127): a
run of them yields the keystream of the seed. -/

namespace Sys2Proof.Machine

/-- A run whose first step comes to a next state goes on from there. -/
theorem run_succ_of_step {M : Host.Core} {s t : M.State} (h : M.step s = .next t) (k : Nat) :
    M.run (k + 1) s = M.run k t := by
  rw [Host.Core.run, h]

/-- A step on the command of PRNG_INIT seeds the generator (R92, R124). -/
theorem step_prngInit {s : State} {seed : Byte} {rest : Bytes} (hformat : s.issued.format = .cmd)
    (hbytes : s.issued.bytes = 0x02 :: seed :: rest) :
    step s = .next (((s.take rest).setLfsr (lfsrLoad Config.params seed)).deliver .none) :=
  step_of_decode (i := .prngInit seed) (by rw [hformat, hbytes]; rfl)

/-- A step on the command of PRNG_NEXT takes one byte of the keystream (R92, R126). -/
theorem step_prngNext {s : State} {rest : Bytes} (hformat : s.issued.format = .cmd)
    (hbytes : s.issued.bytes = 0x03 :: rest) :
    step s = .next (((s.take rest).setLfsr (prngNext Config.params s.lfsr).2).deliver
      (.byte (prngNext Config.params s.lfsr).1)) :=
  step_of_decode (i := .prngNext) (by rw [hformat, hbytes]; rfl)

/-- A run of PRNG_NEXT commands ends with the byte of the last and the register behind it. -/
theorem run_prngNext : ∀ (n : Nat) (s : State), s.issued.format = .cmd →
    s.issued.bytes = List.replicate (n + 1) 0x03 →
    Host.Core.run core (n + 1) s = .next
      (((s.take []).setLfsr (prngState Config.params s.lfsr (n + 1))).deliver
        (.byte (prngNext Config.params (prngState Config.params s.lfsr n)).1))
  | 0, _, hformat, hbytes => run_succ_of_step (M := core) (step_prngNext hformat hbytes) 0
  | n + 1, s, hformat, hbytes => by
    rw [prngState_succ _ s.lfsr, prngState_succ _ s.lfsr]
    exact (run_succ_of_step (M := core) (step_prngNext hformat hbytes) (n + 1)).trans
      (run_prngNext n _ hformat rfl)

/-- Settles O28: the step of PRNG_INIT loads the seed, and the run of PRNG_NEXT goes on from it. -/
theorem seededCommandsYieldKeystream : Obligations.SeededCommandsYieldKeystream := fun _ _ n hformat hbytes =>
  (run_succ_of_step (M := core) (step_prngInit hformat hbytes) (n + 1)).trans (run_prngNext n _ hformat rfl)

end Sys2Proof.Machine
end

section
/-! Proof of the statement about the builders' output (spec/43_packet_build.md, R165): a packet that is built passes
every test of the parser. -/

namespace Sys2Proof.Machine

/-- A header of version 0 and a type with a layout, and a payload of the length it declares (R71 to R74): what a builder
hands on to be checksummed. -/
structure WellHeaded (h : Byte) (payload : Bytes) : Prop where
  version : hdrVersion h = 0
  hasLayout : ∀ chEn cfgEn, (payloadEvents chEn cfgEn h payload).isSome
  length : payload.length = payloadSize h

/-- The header a builder makes declares its payload, of the type OffsetArray or Config. -/
theorem wellHeaded_mkHeader {ptype : BitVec 2} {payload : Bytes} {n : Nat} (htype : ptype = 0 ∨ ptype = 2)
    (hn : payload.length = n + 2) (hmax : n ≤ 15) : WellHeaded (mkHeader 0 ptype (BitVec.ofNat 4 n)) payload := by
  obtain ⟨hv, ht, hz⟩ := fields_mkHeader 0 ptype (BitVec.ofNat 4 n)
  refine ⟨hv, fun chEn cfgEn => ?_, ?_⟩
  · rw [payloadEvents, ht]
    obtain rfl | rfl := htype <;> rfl
  · rw [payloadSize, hz, BitVec.toNat_ofNat, hn]
    omega

/-- A packet whose header declares its payload parses without an error (R141). -/
theorem parseBuffer_rawPacket (P : Params) {h : Byte} {payload : Bytes} (hw : WellHeaded h payload)
    (chEn cfgEn : Bool) : (parseBuffer P (some (rawPacket P h payload)) chEn cfgEn).1 = .none := by
  obtain ⟨ev, hev⟩ := Option.isSome_iff_exists.1 (hw.hasLayout chEn cfgEn)
  have hpass := parsePacket_payload (P := P) (more := []) hw.version hw.length hev
  show (parseBuffer P (some (h :: (payload ++ [ck P (h :: payload) 0]))) chEn cfgEn).1 = .none
  rw [parseBuffer_cons, hpass]
  rfl

/-- What a builder hands back: a packet whose header declares its payload, or an error, which is no overflow when the
capacity is `PACKET_MAX` (R162, R165). -/
def Built.RawPacketOrError (P : Params) (cap : Nat) (b : Built) : Prop :=
  (∃ h payload, WellHeaded h payload ∧ b = ⟨.none, packetLength h, rawPacket P h payload⟩) ∨
    (b.status ≠ .none ∧ (19 ≤ cap → b.status ≠ .bufferOverflow))

theorem finishBuild_rawPacketOrError (P : Params) {h : Byte} {payload : Bytes} (cap : Nat)
    (hw : WellHeaded h payload) : (finishBuild P (h :: payload) cap).RawPacketOrError P cap := by
  have hlen : (h :: payload).length + 1 = packetLength h := by
    rw [List.length_cons, hw.length, payloadSize, packetLength]
  have hmax := payloadSize_le h
  obtain ⟨hcap, hb⟩ | ⟨-, hb⟩ := finishBuild_cases P (h :: payload) cap <;> rw [hb]
  · refine .inr ⟨nofun, fun h19 => ?_⟩
    rw [List.length_cons, hw.length] at hcap
    omega
  · exact .inl ⟨h, payload, hw, by rw [hlen]; rfl⟩

theorem buildOa_rawPacketOrError (P : Params) (offset : Byte) (values : Buffer) (cap : Nat) :
    (buildOa P offset values cap).RawPacketOrError P cap := by
  cases values with
  | none => exact .inr ⟨nofun, fun _ => nofun⟩
  | some values =>
    obtain ⟨-, hb⟩ | ⟨hmin, hmax, hb⟩ := buildOa_cases P offset values cap <;> rw [hb]
    · exact .inr ⟨nofun, fun _ => nofun⟩
    · refine finishBuild_rawPacketOrError P cap (wellHeaded_mkHeader (.inl rfl) ?_ ?_)
      · rw [List.length_cons]; omega
      · omega

theorem buildCfg_rawPacketOrError (P : Params) (key values : Buffer) (cap : Nat) :
    (buildCfg P key values cap).RawPacketOrError P cap := by
  match key, values with
  | none, _ => exact .inr ⟨nofun, fun _ => nofun⟩
  | some _, none => exact .inr ⟨nofun, fun _ => nofun⟩
  | some key, some values =>
    obtain ⟨-, hb⟩ | ⟨hmin, hmax, hb⟩ := buildCfg_cases P key values cap <;> rw [hb]
    · exact .inr ⟨nofun, fun _ => nofun⟩
    · refine finishBuild_rawPacketOrError P cap (wellHeaded_mkHeader (.inr rfl) ?_ ?_)
      · rw [List.length_append, List.length_cons]; omega
      · omega

theorem length_rawPacket (P : Params) {h : Byte} {payload : Bytes} (hw : WellHeaded h payload) :
    (rawPacket P h payload).length = packetLength h := by
  simp [rawPacket, packetLength, hw.length, payloadSize]

theorem packetLength_bounds (h : Byte) : 4 ≤ packetLength h ∧ packetLength h ≤ 19 := by
  have := (hdrSize h).isLt
  unfold packetLength
  omega

/-- The last byte of a packet is the checksum of the rest (R78). -/
theorem getLast?_rawPacket (P : Params) (h : Byte) (payload : Bytes) :
    (rawPacket P h payload).getLast? = some (ck P (rawPacket P h payload).dropLast 0) := by
  rw [rawPacket, List.getLast?_concat, List.dropLast_concat]
  rfl

/-- The results of a packet build are what its builder hands back. -/
theorem exec_build_result {i : Instr} {s t : State} {cap : Nat}
    (hi : (∃ offset values, i = .buildOa offset values cap) ∨ ∃ key values, i = .buildCfg key values cap)
    (h : exec i s = .next t) :
    ∃ b : Built, b.RawPacketOrError Config.params cap ∧ t.result = .built b.status b.sizeOut b.out := by
  obtain ⟨-, rfl⟩ := (exec_next_iff i s t).1 h
  obtain ⟨offset, values, rfl⟩ | ⟨key, values, rfl⟩ := hi
  · exact ⟨_, buildOa_rawPacketOrError Config.params offset values cap, rfl⟩
  · exact ⟨_, buildCfg_rawPacketOrError Config.params key values cap, rfl⟩

/-- Settles O44: the builders' packets have a header that declares their payload, and such a packet passes. -/
theorem builtPacketsAreValid : Obligations.BuiltPacketsAreValid := by
  intro i s t st n cap out hi hexec hresult
  obtain ⟨b, hb, hbuilt⟩ := exec_build_result hi hexec
  obtain ⟨rfl, rfl, rfl⟩ := Result.built.inj (hbuilt.symm.trans hresult)
  obtain ⟨h, payload, hw, rfl⟩ | ⟨herror, hoverflow⟩ := hb
  · obtain ⟨hmin, hmax⟩ := packetLength_bounds h
    exact ⟨fun _ => nofun, fun _ => ⟨length_rawPacket _ hw, hmin, hmax, hw.version, rfl,
      getLast?_rawPacket _ h payload, parseBuffer_rawPacket _ hw⟩⟩
  · exact ⟨hoverflow, fun hnone => absurd hnone herror⟩

end Sys2Proof.Machine
end

section
/-! Proofs of the statements about the checksum (spec/40_checksum.md, R111 to R113): CKSUM folds `CK_STEP` and touches
nothing else, a checksum streams, and a function that streams is a fold. -/

namespace Sys2Proof.Machine

/-- A checksum continues over a second range from the value of the first (R113). -/
theorem ck_append (P : Params) (a b : Bytes) (seed : Byte) : ck P (a ++ b) seed = ck P b (ck P a seed) :=
  List.foldl_append

/-- A function that streams is, on every non-empty range, the fold of what it does with one byte: a range is its first
byte, then the rest seeded with that byte's value (R113). An empty range is left out: the law says of it only that a
value the function returns stands. -/
theorem eq_foldl_of_streams {f : Bytes → Byte → Byte} (hf : ∀ a b seed, f (a ++ b) seed = f b (f a seed)) :
    ∀ (s : Bytes) (seed : Byte), s ≠ [] → f s seed = s.foldl (fun v b => f [b] v) seed
  | [], _, hne => absurd rfl hne
  | [_], _, _ => rfl
  | b :: c :: s, seed, _ => calc
      f (b :: c :: s) seed = f (c :: s) (f [b] seed) := hf [b] (c :: s) seed
      _ = (c :: s).foldl (fun v b => f [b] v) (f [b] seed) :=
        eq_foldl_of_streams hf (c :: s) (f [b] seed) (List.cons_ne_nil c s)

/-- Settles O20: `CK` is a fold, and the converse is `eq_foldl_of_streams`. -/
theorem checksumStreams : Obligations.ChecksumStreams :=
  ⟨ck_append, fun _ => eq_foldl_of_streams⟩

/-- Settles O19: for a sequence within `LEN_MAX` the next state is `exec_next_iff`'s, which keeps `LFSR` and the issue. -/
theorem cksumFoldsStepOverBytes : Obligations.CksumFoldsStepOverBytes :=
  fun bytes seed s hlen => (exec_next_iff (.cksum (some bytes) seed) s _).2 ⟨hlen, rfl⟩

end Sys2Proof.Machine
end

section
/-! Proofs of the statements about the generator (spec/41_prng.md, R121 to R127): what PRNG_INIT loads, the eight bits of
PRNG_NEXT one by one, the zero state, and the keystream along a run. -/

namespace Sys2Proof.Machine

/-! ### The two operations -/

/-- PRNG_INIT loads the seed and has no results (R124). -/
theorem exec_prngInit (seed : Byte) (s : State) :
    exec (.prngInit seed) s = .next ((s.setLfsr (lfsrLoad Config.params seed)).deliver .none) := rfl

/-- PRNG_NEXT delivers the generator's byte and keeps its register (R126). -/
theorem exec_prngNext (s : State) :
    exec .prngNext s = .next ((s.setLfsr (prngNext Config.params s.lfsr).2).deliver
      (.byte (prngNext Config.params s.lfsr).1)) := rfl

@[simp] theorem lfsrLoad_zero (P : Params) : lfsrLoad P 0 = 1 := if_pos rfl

/-- Settles O23: the value is `LFSR_LOAD` of the seed, which is never 0. -/
theorem prngInitSeeds : Obligations.PrngInitSeeds := fun seed s =>
  ⟨_, exec_prngInit seed s, lfsrLoad_ne_zero Config.params seed,
    fun hseed => hseed ▸ lfsrLoad_zero Config.params, rfl⟩

/-! ### The zero state -/

/-- Neither tap of the zero state holds a bit, so 0 is shifted in and 0 is emitted (`LFSR_P2` of R123). -/
theorem lfsrBit_zero (P : Params) : lfsrBit P 0 = (0, false) := by
  have key : ∀ taps out, lfsrBit { testParams with lfsrTaps := taps, lfsrOut := out } 0 = (0, false) := by
    intro taps out
    cases taps <;> cases out <;> decide
  rw [lfsrBit_eq]
  exact key _ _

/-- A turn of the loop of R126 from the zero state puts a 0 in the byte and keeps the state. -/
theorem prngShift_zero (P : Params) (j : Nat) : prngShift P (0, 0) j = (0, 0) := by
  rw [prngShift, lfsrBit_zero]
  simp

theorem prngNext_zero (P : Params) : prngNext P 0 = (0, 0) :=
  List.foldl_fixed' (prngShift_zero P) _

/-- Settles O29: from the zero state all eight turns keep both the byte and the register 0. -/
theorem zeroLfsrStaysZero : Obligations.ZeroLfsrStaysZero := by
  intro s hs
  rw [exec_prngNext, hs, prngNext_zero, ← hs]
  rfl

/-! ### The eight bits of a byte -/

/-- The loop of R126 after `n` of its turns: the byte as far as it is assembled, and the register. -/
def prngTurns (P : Params) (r : Bits7) (n : Nat) : Byte × Bits7 := (List.range n).foldl (prngShift P) (0, r)

theorem prngTurns_zero (P : Params) (r : Bits7) : prngTurns P r 0 = (0, r) := rfl

theorem prngTurns_succ (P : Params) (r : Bits7) (n : Nat) :
    prngTurns P r (n + 1) = prngShift P (prngTurns P r n) n := by
  simp [prngTurns, List.range_succ]

theorem prngNext_eq_prngTurns (P : Params) (r : Bits7) : prngNext P r = prngTurns P r 8 := rfl

/-- Each turn shifts the register once. -/
theorem prngTurns_reg (P : Params) (r : Bits7) : ∀ n, (prngTurns P r n).2 = lfsrSteps P r n
  | 0 => rfl
  | n + 1 => by
    rw [prngTurns_succ, lfsrSteps, ← prngTurns_reg P r n]
    rfl

theorem bitPosition_lt (order : BitOrder) {j : Nat} (hj : j < 8) : bitPosition order j < 8 := by
  cases order with
  | msbFirst => exact Nat.sub_lt_succ 7 j
  | lsbFirst => exact hj

theorem bitPosition_inj (order : BitOrder) {j k : Nat} (hj : j < 8) (hk : k < 8) :
    bitPosition order j = bitPosition order k ↔ j = k := by
  cases order with
  | msbFirst => simp only [bitPosition]; omega
  | lsbFirst => exact Iff.rfl

/-- A bit shifted up by `k` stands at place `k` of a byte and nowhere else. -/
theorem getLsbD_ofBool_shiftLeft (bit : Bool) (k : Nat) {p : Nat} (hp : p < 8) :
    ((BitVec.ofBool bit).setWidth 8 <<< k : Byte).getLsbD p = (decide (p = k) && bit) := by
  rw [BitVec.getLsbD_shiftLeft, BitVec.getLsbD_setWidth, BitVec.getLsbD_ofBool]
  obtain hlt | rfl | hgt := Nat.lt_trichotomy p k
  · simp [hlt, hlt.ne]
  · simp [hp]
  · simp [hgt.ne', Nat.sub_ne_zero_of_lt hgt]

/-- A turn adds the emitted bit at its own position and leaves the other bits of the byte as they were. -/
theorem getLsbD_prngShift (P : Params) (acc : Byte × Bits7) (k : Nat) {p : Nat} (hp : p < 8) :
    (prngShift P acc k).1.getLsbD p
      = (acc.1.getLsbD p || (decide (p = bitPosition P.lfsrOrder k) && (lfsrBit P acc.2).2)) := by
  rw [← getLsbD_ofBool_shiftLeft _ _ hp]
  exact BitVec.getLsbD_or

/-- After `n` turns the places of the first `n` emitted bits hold them, and the other places hold 0. -/
theorem getLsbD_prngTurns (P : Params) (r : Bits7) {j : Nat} (hj : j < 8) : ∀ n ≤ 8,
    (prngTurns P r n).1.getLsbD (bitPosition P.lfsrOrder j)
      = (decide (j < n) && (lfsrBit P (lfsrSteps P r j)).2)
  | 0, _ => by simp [prngTurns_zero]
  | n + 1, hn => by
    rw [prngTurns_succ, getLsbD_prngShift P _ n (bitPosition_lt _ hj), prngTurns_reg,
      getLsbD_prngTurns P r hj n (by omega)]
    simp only [bitPosition_inj P.lfsrOrder hj (by omega : n < 8)]
    obtain hlt | rfl | hgt := Nat.lt_trichotomy j n
    · simp [hlt, hlt.ne, Nat.lt_succ_of_lt hlt]
    · simp
    · simp [hgt.ne', Nat.not_lt.2 hgt.le, Nat.not_lt.2 (Nat.succ_le_of_lt hgt)]

/-- The register after a byte is eight single-bit steps on (R126). -/
theorem prngNext_reg (P : Params) (r : Bits7) : (prngNext P r).2 = lfsrSteps P r 8 := prngTurns_reg P r 8

/-- The `j`-th emitted bit stands where `LFSR_ORDER` puts it (R125). -/
theorem getLsbD_prngNext (P : Params) (r : Bits7) {j : Nat} (hj : j < 8) :
    (prngNext P r).1.getLsbD (bitPosition P.lfsrOrder j) = (lfsrBit P (lfsrSteps P r j)).2 := by
  rw [prngNext_eq_prngTurns, getLsbD_prngTurns P r hj 8 le_rfl, decide_eq_true hj, Bool.true_and]

/-- Settles O24: the byte is the generator's, bit by bit. -/
theorem prngNextEmitsEightBits : Obligations.PrngNextEmitsEightBits := by
  intro s
  refine ⟨(prngNext Config.params s.lfsr).1, ?_, fun j hj => getLsbD_prngNext Config.params s.lfsr hj⟩
  rw [exec_prngNext, prngNext_reg]
  rfl

/-! ### The keystream along a run -/

/-- Along a run in which only PRNG_NEXT changes `LFSR`, the register goes one byte on with each PRNG_NEXT. -/
theorem runKeepsStream_lfsr : ∀ {between : List Instr} {s t : State}, runKeepsStream between s t →
    t.lfsr = prngState Config.params s.lfsr (between.count .prngNext)
  | [], _, _, h => congrArg (·.lfsr) h
  | i :: rest, s, t, ⟨u, hexec, hkeep, hrest⟩ => by
    have ht := runKeepsStream_lfsr hrest
    by_cases hi : i = .prngNext
    · subst hi
      obtain rfl := Host.Outcome.next.inj ((exec_prngNext s).symm.trans hexec)
      rw [ht, List.count_cons_self, prngState_succ]
      rfl
    · rw [ht, hkeep.resolve_left hi, List.count_cons_of_ne hi]

/-- Settles O27: the register behind the run is the seed's, so many bytes on, and the next byte is the keystream's. -/
theorem seededRunYieldsKeystream : Obligations.SeededRunYieldsKeystream := by
  intro seed between s₀ s t hinit hrun
  obtain rfl := Host.Outcome.next.inj ((exec_prngInit seed s₀).symm.trans hinit)
  rw [exec_prngNext, runKeepsStream_lfsr hrun]
  rfl

end Sys2Proof.Machine
end

section
/-! Proofs of the statements about the parser (spec/42_packet_parse.md, R141 to R153): each test of a packet and the
status it ends with, the events of the three layouts, buffers of several packets, and the rows a header byte selects. -/

namespace Sys2Proof.Machine

/-! ### The header byte -/

@[simp] theorem hdrVersion_mkHeader (v t : BitVec 2) (z : BitVec 4) : hdrVersion (mkHeader v t z) = v :=
  (fields_mkHeader v t z).1

@[simp] theorem hdrType_mkHeader (v t : BitVec 2) (z : BitVec 4) : hdrType (mkHeader v t z) = t :=
  (fields_mkHeader v t z).2.1

@[simp] theorem payloadSize_mkHeader (v t : BitVec 2) (z : BitVec 4) :
    payloadSize (mkHeader v t z) = z.toNat + 2 := by
  rw [payloadSize, (fields_mkHeader v t z).2.2]

theorem hdrVersion_eq_zero_iff (h : Byte) : hdrVersion h = 0 ↔ h.toNat < 64 := by
  rw [← BitVec.toNat_inj, hdrVersion_toNat]
  exact Nat.div_eq_zero_iff_lt (by decide)

theorem hdrType_eq_three {h : Byte} (hmin : 48 ≤ h.toNat) (hmax : h.toNat < 64) : hdrType h = 3 := by
  rw [← BitVec.toNat_inj, hdrType_toNat]
  show h.toNat / 16 % 4 = 3
  omega

theorem payloadSize_eq (h : Byte) : payloadSize h = h.toNat % 16 + 2 := by
  rw [payloadSize, hdrSize_toNat]

/-- The header bytes the statements write out for a payload of `n + 2` bytes, by their fields (R71, R74). -/
theorem header_eq_mkHeader : ∀ n < 16, BitVec.ofNat 8 n = mkHeader 0 0 (BitVec.ofNat 4 n) ∧
    BitVec.ofNat 8 (0x10 + n) = mkHeader 0 1 (BitVec.ofNat 4 n) ∧
    0x20 ||| BitVec.ofNat 8 n = mkHeader 0 2 (BitVec.ofNat 4 n) := by
  decide

/-! ### The tests of one packet, in order -/

section Tests

variable {P : Params} {chEn cfgEn : Bool} {h : Byte} {tail : Bytes}

/-- First test (R142). -/
theorem parsePacket_tooShort (hlen : tail.length < 3) :
    parsePacket P chEn cfgEn h tail = .fails .packetTooShort :=
  if_pos (Nat.succ_lt_succ hlen)

theorem not_lt_packetMin (hlen : 3 ≤ tail.length) : ¬ tail.length + 1 < Config.packetMin :=
  Nat.not_lt.2 (Nat.succ_le_succ hlen)

/-- Second test (R143). -/
theorem parsePacket_unsupportedVersion (hlen : 3 ≤ tail.length) (hv : hdrVersion h ≠ 0) :
    parsePacket P chEn cfgEn h tail = .fails .unsupportedVersion :=
  (if_neg (not_lt_packetMin hlen)).trans (if_pos hv)

/-- Third test (R144). -/
theorem parsePacket_invalidSize (hlen : 3 ≤ tail.length) (hv : hdrVersion h = 0)
    (hsize : tail.length ≤ payloadSize h) : parsePacket P chEn cfgEn h tail = .fails .invalidSize :=
  (if_neg (not_lt_packetMin hlen)).trans <| (if_neg (not_not.2 hv)).trans <|
    if_pos (show tail.length + 1 < payloadSize h + 2 by omega)

/-- With the first three tests passed, the checksum and the type decide. -/
theorem parsePacket_of_fits (hv : hdrVersion h = 0) (hsize : payloadSize h < tail.length) :
    parsePacket P chEn cfgEn h tail =
      if some (ck P (h :: tail.take (payloadSize h)) 0) ≠ tail[payloadSize h]? then .fails .invalidCrc
      else
        match payloadEvents chEn cfgEn h (tail.take (payloadSize h)) with
        | none => .fails .unsupportedFormat
        | some events => .passes events (tail.drop (payloadSize h + 1)) := by
  have hmin : 2 ≤ payloadSize h := Nat.le_add_left 2 _
  have hfits : ¬ packetLength h > tail.length + 1 :=
    Nat.not_lt.2 (show payloadSize h + 2 ≤ tail.length + 1 by omega)
  exact (if_neg (not_lt_packetMin (by omega))).trans <| (if_neg (not_not.2 hv)).trans (if_neg hfits)

/-- Fourth test (R145). -/
theorem parsePacket_invalidCrc (hv : hdrVersion h = 0) (hsize : payloadSize h < tail.length)
    (hck : tail[payloadSize h]? ≠ some (ck P (h :: tail.take (payloadSize h)) 0)) :
    parsePacket P chEn cfgEn h tail = .fails .invalidCrc := by
  rw [parsePacket_of_fits hv hsize, if_pos hck.symm]

theorem payloadEvents_type3 (ht : hdrType h = 3) (payload : Bytes) :
    payloadEvents chEn cfgEn h payload = none := by
  rw [payloadEvents, ht]
  rfl

/-- The dispatch of type 3 (R149). -/
theorem parsePacket_unsupportedFormat (hv : hdrVersion h = 0) (hsize : payloadSize h < tail.length)
    (hck : tail[payloadSize h]? = some (ck P (h :: tail.take (payloadSize h)) 0)) (ht : hdrType h = 3) :
    parsePacket P chEn cfgEn h tail = .fails .unsupportedFormat := by
  rw [parsePacket_of_fits hv hsize, if_neg (not_not.2 hck.symm), payloadEvents_type3 ht]

/-- A parse whose first packet fails ends there, with no event (R152). -/
theorem parseBuffer_of_fails {st : Status} (hp : parsePacket P chEn cfgEn h tail = .fails st) :
    parseBuffer P (some (h :: tail)) chEn cfgEn = (st, []) := by
  rw [parseBuffer_cons, hp]

/-! ### A payload and the byte in the checksum's place -/

variable {payload more : Bytes} {c : Byte}

theorem parsePacket_payload_invalidCrc (hv : hdrVersion h = 0) (hl : payload.length = payloadSize h)
    (hc : c ≠ ck P (h :: payload) 0) :
    parsePacket P chEn cfgEn h (payload ++ c :: more) = .fails .invalidCrc :=
  parsePacket_invalidCrc hv (by simp [hl]) (by simpa [← hl] using hc)

theorem parsePacket_payload_unsupportedFormat (hv : hdrVersion h = 0) (hl : payload.length = payloadSize h)
    (hc : c = ck P (h :: payload) 0) (ht : hdrType h = 3) :
    parsePacket P chEn cfgEn h (payload ++ c :: more) = .fails .unsupportedFormat :=
  parsePacket_unsupportedFormat hv (by simp [hl]) (by simpa [← hl] using hc) ht

/-- A good packet's events come first; the buffer then ends, or what follows is parsed as a buffer of its own
(R140). -/
theorem parseBuffer_payload {ev : List Event} (hv : hdrVersion h = 0) (hl : payload.length = payloadSize h)
    (he : payloadEvents chEn cfgEn h payload = some ev) :
    parseBuffer P (some (h :: (payload ++ ck P (h :: payload) 0 :: more))) chEn cfgEn =
      if more = [] then (.none, ev)
      else ((parseBuffer P (some more) chEn cfgEn).1, ev ++ (parseBuffer P (some more) chEn cfgEn).2) := by
  rw [parseBuffer_cons, parsePacket_payload hv hl he]

end Tests

/-! ### PARSE as an instruction -/

/-- PARSE of a buffer that `LEN_MAX` admits delivers the parse's results and changes nothing else (R141). -/
theorem exec_parse {buf : Buffer} (hlen : bufferWithinLenMax Config.params buf) (chEn cfgEn : Bool) (s : State) :
    exec (.parse buf chEn cfgEn) s
      = .next { s with result := parsedResult (parseBuffer Config.params buf chEn cfgEn) } :=
  (exec_next_iff (.parse buf chEn cfgEn) s _).2 ⟨hlen, rfl⟩

/-- Settles O31: each clause is one test failing with those before it passed. -/
theorem parseTestsInOrder : Obligations.ParseTestsInOrder := by
  intro h tail chEn cfgEn s hlen
  have hfails : ∀ {st}, parsePacket Config.params chEn cfgEn h tail = .fails st →
      parsedResult (parseBuffer Config.params (some (h :: tail)) chEn cfgEn) = .parsed st [] :=
    fun hp => congrArg parsedResult (parseBuffer_of_fails hp)
  have hversion := hdrVersion_eq_zero_iff h
  rw [← payloadSize_eq]
  refine ⟨_, exec_parse (buf := some _) hlen chEn cfgEn s, fun hshort => ?_, fun hmin hv => ?_,
    fun hmin hv hsize => ?_, fun hv hsize hck => ?_, fun ht hv hsize hck => ?_⟩
  · exact hfails (parsePacket_tooShort hshort)
  · exact hfails (parsePacket_unsupportedVersion hmin (mt hversion.1 (Nat.not_lt.2 hv)))
  · exact hfails (parsePacket_invalidSize hmin (hversion.2 hv) (by rw [payloadSize_eq]; omega))
  · exact hfails (parsePacket_invalidCrc (hversion.2 hv) (by rw [payloadSize_eq]; omega) hck)
  · exact hfails (parsePacket_unsupportedFormat (hversion.2 hv) (by rw [payloadSize_eq]; omega) hck
      (hdrType_eq_three ht hv))

/-- Settles O32: the parameter has two values, and the parse of the empty buffer reads nothing else. -/
theorem parseEmptyBuffer : Obligations.ParseEmptyBuffer := by
  refine ⟨?_, fun s chEn cfgEn => exec_parse (buf := some []) rfl chEn cfgEn s⟩
  unfold emptyBufStatus
  split
  · exact .inl rfl
  · exact .inr rfl

/-! ### Absent buffers -/

theorem buildCfg_absent (P : Params) {key values : Buffer} (cap : Nat) (h : key = none ∨ values = none) :
    buildCfg P key values cap = ⟨.nullPointer, cap, []⟩ := by
  obtain rfl | rfl := h
  · rfl
  · cases key <;> rfl

/-- A build composite whose builder meets an absent operand ends with its status (R213, R214). -/
theorem framedBuild_absent (P : Params) (middle : Bytes → Bits7 → Bytes × Bits7) {raw : Built} (cap : Nat)
    (r : Bits7) {n : Nat} (hraw : raw = ⟨.nullPointer, n, []⟩) :
    framedBuild P middle raw cap r = (⟨.nullPointer, cap, []⟩, r) := by
  subst hraw
  rfl

/-- The three builds of a Config packet, with one of its two operands absent (R162). -/
theorem exec_cfgBuilds_absent {key values : Buffer} (cap : Nat) (s : State) (h : key = none ∨ values = none) :
    ∀ i ∈ [Instr.buildCfg key values cap, .cobsBuildCfg key values cap, .randCobsBuildCfg key values cap],
      exec i s = .next { s with result := .built .nullPointer cap [] } := by
  simp only [List.mem_cons, List.not_mem_nil, or_false, forall_eq_or_imp, forall_eq, exec_eq, instrOutcome,
    buildCfg_absent _ _ h, framedBuild_absent _ _ _ _ rfl]
  exact ⟨rfl, rfl, rfl⟩

/-- Settles O30: every operation with an absent buffer answers before it looks at anything else. -/
theorem absentBuffers : Obligations.AbsentBuffers := by
  intro s chEn cfgEn offset b cap
  have hkey := exec_cfgBuilds_absent (key := none) (values := b) cap s (.inl rfl)
  have hvalues := exec_cfgBuilds_absent (key := b) (values := none) cap s (.inr rfl)
  simp only [List.mem_cons, List.not_mem_nil, or_false, forall_eq_or_imp, forall_eq] at hkey hvalues ⊢
  obtain ⟨hkeyPlain, hkeyCobs, hkeyRand⟩ := hkey
  obtain ⟨hvaluesPlain, hvaluesCobs, hvaluesRand⟩ := hvalues
  exact ⟨⟨rfl, rfl, rfl⟩, ⟨rfl, hkeyPlain, hvaluesPlain, rfl, hkeyCobs, hvaluesCobs, rfl, hkeyRand, hvaluesRand⟩,
    rfl⟩

/-! ### The events of the three layouts -/

theorem payloadEvents_offsetArray (chEn cfgEn : Bool) (z : BitVec 4) (payload : Bytes) :
    payloadEvents chEn cfgEn (mkHeader 0 0 z) payload = some (if chEn then offsetArrayEvents payload else []) := by
  rw [payloadEvents, hdrType_mkHeader]
  rfl

theorem payloadEvents_channelValuePairs (chEn cfgEn : Bool) (z : BitVec 4) (payload : Bytes) :
    payloadEvents chEn cfgEn (mkHeader 0 1 z) payload = some (if chEn then channelValueEvents payload else []) := by
  rw [payloadEvents, hdrType_mkHeader]
  rfl

theorem payloadEvents_config (chEn cfgEn : Bool) (z : BitVec 4) (payload : Bytes) :
    payloadEvents chEn cfgEn (mkHeader 0 2 z) payload = some (if cfgEn then configEvents payload else []) := by
  rw [payloadEvents, hdrType_mkHeader]
  rfl

/-- A channel is a byte, so it wraps at 256 by itself (R75, R146). -/
theorem offsetArrayEvents_cons (offset : Byte) (values : Bytes) :
    offsetArrayEvents (offset :: values) = setChannels offset values := by
  have hwrap : ∀ n, BitVec.ofNat 8 n = BitVec.ofNat 8 (n % 256) := fun n =>
    BitVec.eq_of_toNat_eq (by simp)
  exact congrArg (List.mapIdx · values) (funext fun i => by rw [hwrap])

theorem channelValueEvents_length : ∀ payload : Bytes,
    (channelValueEvents payload).length = (payload.length + 1) / 2
  | [] => rfl
  | [_] => by simp [channelValueEvents]
  | _ :: _ :: rest => by
    simp only [channelValueEvents, List.length_cons, channelValueEvents_length rest]
    omega

/-- Event `j` is that of pair `j`; reading 0 behind the payload makes it that of a trailing channel too (R147). -/
theorem channelValueEvents_getElem? : ∀ (payload : Bytes) (j : Nat), 2 * j < payload.length →
    (channelValueEvents payload)[j]?
      = some (.setChannel (payload.getD (2 * j) 0) (payload.getD (2 * j + 1) 0))
  | [_], 0, _ => rfl
  | [_], j + 1, hj => by simp only [List.length_singleton] at hj; omega
  | _ :: _ :: _, 0, _ => rfl
  | _ :: _ :: rest, j + 1, hj => by
    have hrest : 2 * j < rest.length := by simp only [List.length_cons] at hj; omega
    simpa [channelValueEvents, Nat.mul_add] using channelValueEvents_getElem? rest j hrest

theorem takeWhile_ne_zero {key : Bytes} (hkey : (0x00 : Byte) ∉ key) : key.takeWhile (· != 0x00) = key :=
  List.takeWhile_eq_self_iff.2 fun _ hb => bne_iff_ne.2 fun h0 => hkey (h0 ▸ hb)

/-- The first `0x00` ends the key (R77). -/
theorem configEvents_delimiter {key : Bytes} (hkey : (0x00 : Byte) ∉ key) (values : Bytes) :
    configEvents (key ++ 0x00 :: values)
      = [.setConfig key (BitVec.ofNat 8 key.length) values (BitVec.ofNat 8 values.length)] := by
  have hsplit : (key ++ 0x00 :: values).takeWhile (· != 0x00) = key := by
    rw [List.takeWhile_append, if_pos (by rw [takeWhile_ne_zero hkey])]
    simp
  have hrest : (key ++ 0x00 :: values).drop (key.length + 1) = values := by simp
  simp only [configEvents, hsplit, hrest]

/-- Without a `0x00` all is key (R77). -/
theorem configEvents_allKey {key : Bytes} (hkey : (0x00 : Byte) ∉ key) :
    configEvents key = [.setConfig key (BitVec.ofNat 8 key.length) [] 0] := by
  have hrest : key.drop (key.length + 1) = [] := List.drop_of_length_le (Nat.le_succ _)
  simp only [configEvents, takeWhile_ne_zero hkey, hrest]
  rfl

/-! ### PARSE of a single packet -/

/-- PARSE of one packet of at most `PAYLOAD_MAX` payload bytes gives its events. -/
theorem exec_parse_rawPacket {t : BitVec 2} {n : Nat} {payload : Bytes} {chEn cfgEn : Bool} {ev : List Event}
    (hn : n < 16) (hl : payload.length = n + 2)
    (he : payloadEvents chEn cfgEn (mkHeader 0 t (BitVec.ofNat 4 n)) payload = some ev) (s : State) :
    exec (.parse (some (rawPacket Config.params (mkHeader 0 t (BitVec.ofNat 4 n)) payload)) chEn cfgEn) s
      = .next { s with result := .parsed .none ev } := by
  have hsize : payload.length = payloadSize (mkHeader 0 t (BitVec.ofNat 4 n)) := by
    rw [payloadSize_mkHeader, BitVec.toNat_ofNat, Nat.mod_eq_of_lt hn, hl]
  have hparse := parseBuffer_payload (P := Config.params) (more := []) (hdrVersion_mkHeader 0 t _) hsize he
  rw [exec_parse (buf := some _) (withinLenMax_of_small _ _)]
  · exact congrArg (fun p => Host.Outcome.next { s with result := parsedResult p }) hparse
  · simp only [rawPacket, List.length_append, List.length_cons, List.length_nil, hl]
    omega

/-- Settles O33: an OffsetArray packet of `n` values has the size field `n - 1`. -/
theorem parseOffsetArrayPacket : Obligations.ParseOffsetArrayPacket := by
  intro offset values chEn cfgEn s hmin hmax
  obtain ⟨hh, -, -⟩ := header_eq_mkHeader (values.length - 1) (by omega)
  rw [oaHeader, hh, ← offsetArrayEvents_cons]
  exact exec_parse_rawPacket (by omega) (by rw [List.length_cons]; omega) (payloadEvents_offsetArray ..) s

/-- Settles O34: the events are `channelValueEvents`, read one by one. -/
theorem parseChannelValuePairsPacket : Obligations.ParseChannelValuePairsPacket := by
  intro payload chEn cfgEn s hmin hmax
  obtain ⟨-, hh, -⟩ := header_eq_mkHeader (payload.length - 2) (by omega)
  refine ⟨channelValueEvents payload, ?_, channelValueEvents_length payload, fun j hj => ?_, fun j hj => ?_⟩
  · rw [hh]
    exact exec_parse_rawPacket (by omega) (by omega) (payloadEvents_channelValuePairs ..) s
  · exact channelValueEvents_getElem? payload j (by omega)
  · have hnone : payload.getD (2 * j + 1) 0 = 0 := List.getD_eq_default _ _ hj.ge
    rw [channelValueEvents_getElem? payload j (by omega), hnone]

/-- PARSE of a Config packet gives the event of its payload if the sink is enabled. -/
theorem exec_parse_config {n : Nat} {payload : Bytes} (hl : payload.length = n) (hmin : 2 ≤ n) (hmax : n ≤ 17)
    (chEn cfgEn : Bool) (s : State) :
    exec (.parse (some (rawPacket Config.params (cfgHeader n) payload)) chEn cfgEn) s
      = .next { s with result := .parsed .none (if cfgEn then configEvents payload else []) } := by
  obtain ⟨-, -, hh⟩ := header_eq_mkHeader (n - 2) (by omega)
  rw [cfgHeader, hh]
  exact exec_parse_rawPacket (by omega) (by omega) (payloadEvents_config ..) s

/-- Settles O35: the payload with a delimiter, and the one without. -/
theorem parseConfigPacket : Obligations.ParseConfigPacket := by
  refine ⟨fun key values chEn cfgEn s hkey hmin hmax => ?_, fun key chEn cfgEn s hkey hmin hmax => ?_⟩
  · rw [← configEvents_delimiter hkey]
    exact exec_parse_config (by rw [List.length_append, List.length_cons]; omega) hmin hmax chEn cfgEn s
  · rw [← configEvents_allKey hkey]
    exact exec_parse_config rfl hmin hmax chEn cfgEn s

/-! ### Several packets -/

/-- A packet that passes does so whatever stands behind the buffer: no test reads beyond the packet. -/
theorem parsePacket_append {P : Params} {chEn cfgEn : Bool} {h : Byte} {tail rest : Bytes} {ev : List Event}
    (hp : parsePacket P chEn cfgEn h tail = .passes ev rest) (more : Bytes) :
    parsePacket P chEn cfgEn h (tail ++ more) = .passes ev (rest ++ more) := by
  obtain ⟨hv, hlen, hck, hev, rfl⟩ := parsePacket_passes hp
  have htake : (tail ++ more).take (payloadSize h) = tail.take (payloadSize h) :=
    List.take_append_of_le_length (by omega)
  rw [← List.drop_append_of_le_length hlen]
  refine parsePacket_of_good hv (by rw [List.length_append]; omega) ?_ (by rw [htake, hev])
  rw [List.getElem?_append_left (by omega), htake, hck]

theorem parsePacket_fails_ne_none {P : Params} {chEn cfgEn : Bool} {h : Byte} {tail : Bytes} {st : Status}
    (hp : parsePacket P chEn cfgEn h tail = .fails st) : st ≠ .none := by
  rintro rfl
  exact absurd (parsePacket_fails hp) (by decide)

/-- Settles O36, by induction on the packets of the first buffer. -/
theorem parseOfConcatenation : Obligations.ParseOfConcatenation := by
  intro P a b chEn cfgEn events ha hb hparse
  induction a using parseBuffer_induction (P := P) (chEn := chEn) (cfgEn := cfgEn) generalizing events with
  | empty => exact absurd rfl ha
  | packet h tail ih =>
    rw [List.cons_append, parseBuffer_cons]
    rw [parseBuffer_cons] at hparse
    cases hp : parsePacket P chEn cfgEn h tail with
    | fails st =>
      rw [hp] at hparse
      exact absurd (congrArg Prod.fst hparse) (parsePacket_fails_ne_none hp)
    | passes ev rest =>
      rw [hp] at hparse
      rw [parsePacket_append hp]
      by_cases hrest : rest = []
      · obtain rfl : ev = events := by simpa [hrest] using hparse
        simp [hrest, hb]
      · simp only [if_neg hrest, Prod.mk.injEq] at hparse
        obtain ⟨hstatus, rfl⟩ := hparse
        simp [hrest, ih ev rest hp hrest _ hrest (Prod.ext hstatus rfl)]

/-- Behind good packets a buffer is parsed as it is alone, the events of the good packets before its own. -/
theorem parseBuffer_append_of_good {chEn cfgEn : Bool} {front b : Bytes} {events : List Event}
    (hgood : goodPackets chEn cfgEn front events) (hb : b ≠ []) :
    parseBuffer Config.params (some (front ++ b)) chEn cfgEn
      = ((parseBuffer Config.params (some b) chEn cfgEn).1,
          events ++ (parseBuffer Config.params (some b) chEn cfgEn).2) := by
  obtain ⟨rfl, rfl⟩ | ⟨hne, hparse⟩ := hgood
  · rfl
  · exact parseOfConcatenation Config.params front b chEn cfgEn events hne hb hparse

/-! ### Disabled sinks -/

theorem offsetArrayEvents_setChannel (payload : Bytes) :
    ∀ e ∈ offsetArrayEvents payload, ∃ c v, e = .setChannel c v := by
  cases payload with
  | nil => exact nofun
  | cons offset values =>
    intro e he
    obtain ⟨i, hi, rfl⟩ := List.mem_mapIdx.1 he
    exact ⟨_, _, rfl⟩

theorem filter_setChannels {ev : List Event} (h : ∀ e ∈ ev, ∃ c v, e = .setChannel c v) (chEn cfgEn : Bool) :
    ev.filter (sinkEnabled chEn cfgEn) = if chEn then ev else [] := by
  have hsink : ∀ e ∈ ev, sinkEnabled chEn cfgEn e = chEn := by
    intro e he
    obtain ⟨c, v, rfl⟩ := h e he
    rfl
  rw [List.filter_congr hsink]
  cases chEn
  · exact List.filter_false ev
  · exact List.filter_true ev

theorem filter_configEvents (payload : Bytes) (chEn cfgEn : Bool) :
    (configEvents payload).filter (sinkEnabled chEn cfgEn) = if cfgEn then configEvents payload else [] := by
  cases cfgEn <;> rfl

/-- Which events a payload gives, and whether it has a layout at all, is decided before the enables are looked at. -/
theorem payloadEvents_filter (chEn cfgEn : Bool) (h : Byte) (payload : Bytes) :
    payloadEvents chEn cfgEn h payload
      = (payloadEvents true true h payload).map (List.filter (sinkEnabled chEn cfgEn)) := by
  unfold payloadEvents
  split
  · exact congrArg some (filter_setChannels (offsetArrayEvents_setChannel payload) chEn cfgEn).symm
  · exact congrArg some (filter_setChannels (channelValueEvents_setChannel payload) chEn cfgEn).symm
  · exact congrArg some (filter_configEvents payload chEn cfgEn).symm
  · rfl

/-- A verdict with the events of disabled sinks left out. -/
def PacketVerdict.hideDisabled (chEn cfgEn : Bool) : PacketVerdict → PacketVerdict
  | .fails status => .fails status
  | .passes events rest => .passes (events.filter (sinkEnabled chEn cfgEn)) rest

theorem parsePacket_hideDisabled (P : Params) (chEn cfgEn : Bool) (h : Byte) (tail : Bytes) :
    parsePacket P chEn cfgEn h tail = (parsePacket P true true h tail).hideDisabled chEn cfgEn := by
  unfold parsePacket
  simp only [payloadEvents_filter chEn cfgEn]
  split; · rfl
  split; · rfl
  split; · rfl
  split; · rfl
  cases payloadEvents true true h (tail.take (payloadSize h)) <;> rfl

/-- Settles O37, by induction on the packets: the verdicts agree but for the hidden events. -/
theorem disabledSinkStillValidates : Obligations.DisabledSinkStillValidates := by
  intro P buf chEn cfgEn
  cases buf with
  | none => exact ⟨rfl, rfl⟩
  | some b =>
    induction b using parseBuffer_induction (P := P) (chEn := true) (cfgEn := true) with
    | empty => exact ⟨rfl, rfl⟩
    | packet h tail ih =>
      rw [parseBuffer_cons, parseBuffer_cons, parsePacket_hideDisabled]
      cases hp : parsePacket P true true h tail with
      | fails st => exact ⟨rfl, rfl⟩
      | passes ev rest =>
        by_cases hrest : rest = []
        · simp [PacketVerdict.hideDisabled, hrest]
        · obtain ⟨hstatus, hevents⟩ := ih ev rest hp hrest
          simp [PacketVerdict.hideDisabled, hrest, hstatus, hevents]

/-! ### Damaged packets -/

/-- A step function that is injective in the running value makes the checksum injective in the seed (R115). -/
theorem ck_seed_injective {P : Params} (hsens : CkSens P.ckStep) : ∀ (bytes : Bytes) {v v' : Byte},
    ck P bytes v = ck P bytes v' → v = v'
  | [], _, _, h => h
  | b :: bytes, _, _, h => hsens.2 b _ _ (ck_seed_injective hsens bytes h)

/-- One changed byte changes the checksum: it is seen in its own step, and what follows it does not hide it (R115). -/
theorem ck_ne_of_byte_ne {P : Params} (hsens : CkSens P.ckStep) {b b' : Byte} (hb : b ≠ b')
    (front back : Bytes) (seed : Byte) : ck P (front ++ b :: back) seed ≠ ck P (front ++ b' :: back) seed := by
  rw [ck_append, ck_append]
  exact fun h => hb (hsens.1 _ _ _ (ck_seed_injective hsens back h))

theorem ck_set_ne {P : Params} (hsens : CkSens P.ckStep) {payload : Bytes} {k : Nat} {b : Byte}
    (hk : k < payload.length) (hb : payload[k]? ≠ some b) (h seed : Byte) :
    ck P (h :: payload) seed ≠ ck P (h :: payload.set k b) seed := by
  have hne : payload[k] ≠ b := fun e => hb (by rw [List.getElem?_eq_getElem hk, e])
  have hsplit : payload = payload.take k ++ payload[k] :: payload.drop (k + 1) := by simp
  rw [List.set_eq_take_append_cons_drop, if_pos hk]
  conv_lhs => rw [hsplit]
  exact ck_ne_of_byte_ne hsens hne (h :: payload.take k) _ seed

/-- Settles O22: a changed byte makes the fourth test fail by `CK_SENS`; a version or a size, an earlier test. -/
theorem damagedPacketStatus : Obligations.DamagedPacketStatus := by
  intro P h h' c payload payload' chEn cfgEn hv hlen hlen' hc
  have hmin : 2 ≤ payloadSize h := Nat.le_add_left 2 _
  have htail : (payload' ++ [c]).length = payloadSize h + 1 := by
    rw [List.length_append, hlen', hlen, List.length_singleton]
  refine ⟨fun hsens => ⟨fun k b hk hb => ?_, fun c' hc' => ?_, fun hne hv' hsize => ?_⟩, fun hv' => ?_,
    fun hv' hsize => ?_⟩
  · exact parseBuffer_of_fails (parsePacket_payload_invalidCrc hv (by rw [List.length_set, hlen])
      (hc ▸ ck_set_ne hsens hk hb h 0))
  · exact parseBuffer_of_fails (parsePacket_payload_invalidCrc hv hlen (hc ▸ hc'))
  · exact parseBuffer_of_fails (parsePacket_payload_invalidCrc hv' (by rw [hlen, payloadSize, payloadSize, hsize])
      (hc ▸ ck_ne_of_byte_ne hsens hne.symm [] payload 0))
  · exact parseBuffer_of_fails (parsePacket_unsupportedVersion (tail := payload' ++ [c]) (by omega) hv')
  · have hlonger : payloadSize h < payloadSize h' := Nat.add_lt_add_right hsize 2
    exact parseBuffer_of_fails (parsePacket_invalidSize (tail := payload' ++ [c]) (by omega) hv' (by omega))

/-! ### The header rows -/

/-- Settles O8: a header row is a parse of what is issued, a code row a decoding of it, and all of it is taken. -/
theorem headerAndCodeRowsWriteOnlyResults : Obligations.HeaderAndCodeRowsWriteOnlyResults := by
  intro i s t h
  refine ⟨fun hf => ?_, fun hf => ?_⟩
  · obtain ⟨b, -, hexec⟩ := exec_hdr hf
    rw [hexec, parseIssued] at h
    obtain ⟨-, hrun⟩ | ⟨-, hrun⟩ := runParse_cases (some (b :: s.issued.bytes)) s.issued.chEn s.issued.cfgEn s.takeAll
      <;> rw [hrun] at h <;> cases h
    exact ⟨_, _, rfl⟩
  · obtain ⟨b, -, hexec⟩ := exec_cobs hf
    rw [hexec, decodeIssued] at h
    obtain ⟨-, hrun⟩ | ⟨-, hrun⟩ := runDecode_cases (b :: s.issued.bytes) s.issued.cap s.takeAll
      <;> rw [hrun] at h <;> cases h
    exact ⟨_, rfl⟩

/-- The row of a header byte is the parse of the buffer it begins. -/
theorem exec_of_encode_header {i : Instr} {h : Byte} (hf : i.format = .hdr) (hi : encode i = [h]) (s : State) :
    exec i s = parseIssued h s := by
  obtain ⟨b, hb, hexec⟩ := exec_hdr hf
  obtain rfl : b = h := List.singleton_injective (hb.symm.trans hi)
  exact hexec s

/-- Settles O38: the row of `h` parses `h` and what is issued behind it, once the step has taken `h`. -/
theorem headerRowsRunParse : Obligations.HeaderRowsRunParse := by
  intro s h tail hformat hbytes
  obtain ⟨henc, hf, -⟩ := encode_decodeHeader h
  have hdecode : decode s.issued.format s.issued.bytes = .ok (decodeHeader h, tail) := by
    rw [hformat, hbytes]
    rfl
  rw [step_of_decode hdecode, exec_of_encode_header hf henc]
  rfl

/-- A header row on a buffer that `LEN_MAX` admits delivers the parse's results. -/
theorem exec_header_row {i : Instr} {h : Byte} {s : State} (hf : i.format = .hdr) (hi : encode i = [h])
    (hlen : withinLenMax Config.params (h :: s.issued.bytes)) :
    exec i s = .next { s with
      issued := Issue.nothing
      result := parsedResult
        (parseBuffer Config.params (some (h :: s.issued.bytes)) s.issued.chEn s.issued.cfgEn) } :=
  (exec_of_encode_header hf hi s).trans (if_pos hlen)

/-- A row whose packet passes gives the packet's events, then the results of what follows. -/
theorem exec_header_row_payload {i : Instr} {t : BitVec 2} {size : BitVec 4} {s : State} {payload more : Bytes}
    {ev : List Event} (hf : i.format = .hdr) (hi : encode i = [mkHeader 0 t size])
    (hlen : payload.length = size.toNat + 2) (hwithin : withinLenMax Config.params (0x00 :: s.issued.bytes))
    (hbytes : s.issued.bytes = payload ++ ck Config.params (mkHeader 0 t size :: payload) 0 :: more)
    (he : payloadEvents s.issued.chEn s.issued.cfgEn (mkHeader 0 t size) payload = some ev) :
    exec i s = .next { s with
      issued := Issue.nothing
      result := if more = [] then .parsed .none ev
        else .parsed (parseBuffer Config.params (some more) s.issued.chEn s.issued.cfgEn).1
          (ev ++ (parseBuffer Config.params (some more) s.issued.chEn s.issued.cfgEn).2) } := by
  rw [exec_header_row hf hi hwithin, hbytes, parseBuffer_payload (hdrVersion_mkHeader 0 t size)
    (by rw [payloadSize_mkHeader, hlen]) he]
  split <;> rfl

/-- Settles O39: each row is `exec_header_row_payload` with the events of its layout. -/
theorem headerRowsGatherEvents : Obligations.HeaderRowsGatherEvents := by
  intro s size payload more after hlen hwithin hafter
  simp only [hafter]
  exact ⟨fun hbytes => exec_header_row_payload rfl rfl hlen hwithin hbytes (payloadEvents_offsetArray ..),
    fun hbytes => exec_header_row_payload rfl rfl hlen hwithin hbytes (payloadEvents_channelValuePairs ..),
    fun hbytes => exec_header_row_payload rfl rfl hlen hwithin hbytes (payloadEvents_config ..)⟩

/-- A row whose packet fails ends the parse, alone and behind good packets (R152). -/
theorem endsParse_of_fails {i : Instr} {h : Byte} {s : State} {front : Bytes} {events : List Event} {st : Status}
    (hf : i.format = .hdr) (hi : encode i = [h])
    (hgood : goodPackets s.issued.chEn s.issued.cfgEn front events)
    (hp : parsePacket Config.params s.issued.chEn s.issued.cfgEn h s.issued.bytes = .fails st) :
    endsParse front events s i st := by
  intro hwithin
  have hparse := parseBuffer_of_fails hp
  rw [hi, List.append_assoc, List.singleton_append] at hwithin ⊢
  refine ⟨?_, ?_⟩
  · rw [exec_header_row hf hi (withinLenMax_of_le _ (by simp) hwithin), hparse]
    rfl
  · rw [exec_parse (buf := some _) hwithin, parseBuffer_append_of_good hgood (List.cons_ne_nil _ _), hparse,
      List.append_nil]
    rfl

/-- The rows of version 0 and their types (R72). -/
def version0Rows (size : BitVec 4) : List (BitVec 2 × Instr) :=
  [(0, .hdrOffsetArray size), (1, .hdrChannelValuePairs size), (2, .hdrConfig size), (3, .hdrType3 size)]

theorem encode_version0Rows {size : BitVec 4} :
    ∀ p ∈ version0Rows size, p.2.format = .hdr ∧ encode p.2 = [mkHeader 0 p.1 size] := by
  simp only [version0Rows, List.mem_cons, List.not_mem_nil, or_false, forall_eq_or_imp, forall_eq]
  exact ⟨⟨rfl, rfl⟩, ⟨rfl, rfl⟩, ⟨rfl, rfl⟩, rfl, rfl⟩

/-- Settles O40: the second test fails for the versions, the fourth for a wrong checksum, the dispatch for type 3. -/
theorem errorHeaderRowsEndTheParse : Obligations.ErrorHeaderRowsEndTheParse := by
  intro s ptype size front events hgood
  refine ⟨fun hlen => ?_, fun payload more c hsize hbytes => ⟨fun p hp hc => ?_, fun hc => ?_⟩⟩
  · have hends : ∀ {i : Instr} {v : BitVec 2}, i.format = .hdr → encode i = [mkHeader v ptype size] → v ≠ 0 →
        endsParse front events s i .unsupportedVersion := fun hf hi hv =>
      endsParse_of_fails hf hi hgood (parsePacket_unsupportedVersion hlen (by simpa using hv))
    simp only [List.mem_cons, List.not_mem_nil, or_false, forall_eq_or_imp, forall_eq]
    exact ⟨hends rfl rfl (by decide), hends rfl rfl (by decide), hends rfl rfl (by decide)⟩
  · obtain ⟨hf, hi⟩ := encode_version0Rows p hp
    refine endsParse_of_fails hf hi hgood ?_
    rw [hbytes]
    exact parsePacket_payload_invalidCrc (hdrVersion_mkHeader ..) (by rw [payloadSize_mkHeader, hsize]) hc
  · refine endsParse_of_fails rfl rfl hgood ?_
    rw [hbytes]
    exact parsePacket_payload_unsupportedFormat (hdrVersion_mkHeader ..) (by rw [payloadSize_mkHeader, hsize]) hc
      (hdrType_mkHeader ..)

/-- Settles O41: the first test fails for any row, the third for a row of version 0. -/
theorem shortHeaderRowsEndTheParse : Obligations.ShortHeaderRowsEndTheParse := by
  intro s i front events hf hgood
  refine ⟨fun hshort => ?_, fun size hmin hsize hi => ?_⟩
  · obtain ⟨h, hi, -⟩ := exec_hdr hf
    exact endsParse_of_fails hf hi hgood (parsePacket_tooShort hshort)
  · obtain ⟨p, hp, rfl⟩ := List.mem_map.1 (show i ∈ (version0Rows size).map Prod.snd from hi)
    obtain ⟨-, hi⟩ := encode_version0Rows p hp
    refine endsParse_of_fails hf hi hgood (parsePacket_invalidSize hmin (hdrVersion_mkHeader ..) ?_)
    rw [payloadSize_mkHeader]
    omega

end Sys2Proof.Machine
end

section
/-! Proofs of the statements about the builder (spec/43_packet_build.md, R161 to R164; spec/42_packet_parse.md, R154):
each case of the two builds, and the parser as the inverse of both. -/

namespace Sys2Proof.Machine

/-! ### The common end of the builders, on a header and a payload -/

section FinishBuild

variable {P : Params} {h : Byte} {payload : Bytes} {ps cap : Nat}

/-- A packet is two bytes longer than its payload (R74), and a smaller capacity is too small. -/
theorem finishBuild_overflow (hlen : payload.length = ps) (hcap : cap < ps + 2) :
    finishBuild P (h :: payload) cap = ⟨.bufferOverflow, ps + 2, []⟩ := by
  subst hlen
  exact if_pos hcap

theorem finishBuild_success (hlen : payload.length = ps) (hcap : ps + 2 ≤ cap) :
    finishBuild P (h :: payload) cap = ⟨.none, ps + 2, rawPacket P h payload⟩ := by
  subst hlen
  exact if_neg (Nat.not_lt.2 hcap)

/-- A build that reports success wrote the packet, whatever its capacity was. -/
theorem out_of_finishBuild_success {n : Nat} {out : Bytes}
    (hbuilt : builtResult (finishBuild P (h :: payload) cap) = .built .none n out) : out = rawPacket P h payload := by
  obtain hcap | hcap := Nat.lt_or_ge cap (payload.length + 2)
  · rw [finishBuild_overflow rfl hcap] at hbuilt
    cases hbuilt
  · rw [finishBuild_success rfl hcap] at hbuilt
    cases hbuilt
    rfl

end FinishBuild

/-! ### The two builders on operands of an admissible length -/

/-- Past its first test BUILD_OA finishes the payload of R161 under its header. -/
theorem buildOa_of_length (P : Params) (offset : Byte) {values : Bytes} (cap : Nat) (hmin : 1 ≤ values.length)
    (hmax : values.length ≤ 16) :
    buildOa P offset (some values) cap = finishBuild P (oaHeader values.length :: offset :: values) cap := by
  obtain ⟨hout, -⟩ | ⟨-, -, hb⟩ := buildOa_cases P offset values cap
  · omega
  · rw [hb, oaHeader, (header_eq_mkHeader (values.length - 1) (by omega)).1]

/-- Past its first test BUILD_CFG finishes the payload of R164 under its header. -/
theorem buildCfg_of_length (P : Params) {key values : Bytes} (cap : Nat) (hmin : 2 ≤ key.length + 1 + values.length)
    (hmax : key.length + 1 + values.length ≤ 17) :
    buildCfg P (some key) (some values) cap
      = finishBuild P (cfgHeader (key.length + 1 + values.length) :: (key ++ 0x00 :: values)) cap := by
  obtain ⟨hout, -⟩ | ⟨-, -, hb⟩ := buildCfg_cases P key values cap
  · omega
  · rw [hb, cfgHeader, (header_eq_mkHeader (key.length + 1 + values.length - 2) (by omega)).2.2]

/-- The first test of BUILD_OA on a value sequence (R161). -/
theorem buildOa_invalidSize (P : Params) (offset : Byte) {values : Bytes} (cap : Nat)
    (hsize : values.length < 1 ∨ 16 < values.length) :
    buildOa P offset (some values) cap = ⟨.invalidSize, cap, []⟩ := by
  obtain ⟨-, hb⟩ | ⟨hmin, hmax, -⟩ := buildOa_cases P offset values cap
  · exact hb
  · omega

/-- The first test of BUILD_CFG on a key and a value sequence (R164). -/
theorem buildCfg_invalidSize (P : Params) {key values : Bytes} (cap : Nat)
    (hsize : key.length + 1 + values.length < 2 ∨ 17 < key.length + 1 + values.length) :
    buildCfg P (some key) (some values) cap = ⟨.invalidSize, cap, []⟩ := by
  obtain ⟨-, hb⟩ | ⟨hmin, hmax, -⟩ := buildCfg_cases P key values cap
  · exact hb
  · omega

theorem length_configPayload (key values : Bytes) :
    (key ++ 0x00 :: values).length = key.length + 1 + values.length := by
  rw [List.length_append, List.length_cons]
  omega

/-! ### The builds as instructions -/

theorem exec_buildOa_of_eq {offset : Byte} {values : Buffer} {cap : Nat} {b : Built}
    (hb : buildOa Config.params offset values cap = b) (s : State) :
    exec (.buildOa offset values cap) s = .next { s with result := builtResult b } :=
  hb ▸ rfl

theorem exec_buildCfg_of_eq {key values : Buffer} {cap : Nat} {b : Built}
    (hb : buildCfg Config.params key values cap = b) (s : State) :
    exec (.buildCfg key values cap) s = .next { s with result := builtResult b } :=
  hb ▸ rfl

/-- Settles O42: the length test, then the two cases of the common end. -/
theorem buildOaWritesPacket : Obligations.BuildOaWritesPacket := by
  intro offset values cap s
  refine ⟨fun hsize => ?_, fun hmin hmax hcap => ?_, fun hmin hmax hcap => ?_⟩
  · exact exec_buildOa_of_eq (buildOa_invalidSize _ offset cap hsize) s
  · exact exec_buildOa_of_eq ((buildOa_of_length _ offset cap hmin hmax).trans (finishBuild_overflow rfl hcap)) s
  · exact exec_buildOa_of_eq ((buildOa_of_length _ offset cap hmin hmax).trans (finishBuild_success rfl hcap)) s

/-- Settles O43: the length test, then the two cases of the common end. -/
theorem buildCfgWritesPacket : Obligations.BuildCfgWritesPacket := by
  rintro key values cap ps s rfl
  have hlen := length_configPayload key values
  refine ⟨fun hsize => ?_, fun hmin hmax hcap => ?_, fun hmin hmax hcap => ?_⟩
  · exact exec_buildCfg_of_eq (buildCfg_invalidSize _ cap hsize) s
  · exact exec_buildCfg_of_eq ((buildCfg_of_length _ cap hmin hmax).trans (finishBuild_overflow hlen hcap)) s
  · exact exec_buildCfg_of_eq ((buildCfg_of_length _ cap hmin hmax).trans (finishBuild_success hlen hcap)) s

/-! ### The parser as the inverse of the builders -/

/-- A successful BUILD_OA on operands of an admissible length wrote their packet. -/
theorem out_of_exec_buildOa {offset : Byte} {values out : Bytes} {cap n : Nat} {s t : State}
    (hmin : 1 ≤ values.length) (hmax : values.length ≤ 16)
    (hexec : exec (.buildOa offset (some values) cap) s = .next t) (hresult : t.result = .built .none n out) :
    out = rawPacket Config.params (oaHeader values.length) (offset :: values) := by
  rw [exec_buildOa_of_eq (buildOa_of_length _ offset cap hmin hmax)] at hexec
  cases hexec
  exact out_of_finishBuild_success hresult

/-- A successful BUILD_CFG on operands of an admissible length wrote their packet. -/
theorem out_of_exec_buildCfg {key values out : Bytes} {cap n : Nat} {s t : State}
    (hmin : 2 ≤ key.length + 1 + values.length) (hmax : key.length + 1 + values.length ≤ 17)
    (hexec : exec (.buildCfg (some key) (some values) cap) s = .next t) (hresult : t.result = .built .none n out) :
    out = rawPacket Config.params (cfgHeader (key.length + 1 + values.length)) (key ++ 0x00 :: values) := by
  rw [exec_buildCfg_of_eq (buildCfg_of_length _ cap hmin hmax)] at hexec
  cases hexec
  exact out_of_finishBuild_success hresult

/-- Settles O45: what a builder wrote is the packet of its operands, and PARSE of that packet gives them (O33, O35). -/
theorem parseOfBuildRoundTrips : Obligations.ParseOfBuildRoundTrips := by
  refine ⟨fun offset values out cap n cfgEn s t u hmin hmax hexec hresult => ?_,
    fun key values out cap n chEn s t u hmin hmax hkey hexec hresult => ?_⟩
  · rw [out_of_exec_buildOa hmin hmax hexec hresult]
    exact parseOffsetArrayPacket offset values true cfgEn u hmin hmax
  · rw [out_of_exec_buildCfg hmin hmax hexec hresult]
    exact parseConfigPacket.1 key values chEn true u hkey hmin hmax

end Sys2Proof.Machine
end

section
/-! Proofs of the statements about the framer (spec/44_cobs.md, R176 to R188): the encoder's output, the decoder as its
inverse and the bound on what it writes, and the code rows as decodings of the frames they begin. -/

namespace Sys2Proof.Machine

/-! ### The framer's operations on present sequences -/

theorem exec_cobsEnc {src : Bytes} (hlen : withinLenMax Config.params src) (cap : Nat) (s : State) :
    exec (.cobsEnc (some src) cap) s = .next { s with result := .bytes (cobsEncode src cap) } :=
  if_pos hlen

theorem exec_cobsDec {src : Bytes} (hlen : withinLenMax Config.params src) (cap : Nat) (s : State) :
    exec (.cobsDec (some src) cap) s = .next { s with result := .bytes (cobsDecode Config.params src cap) } :=
  if_pos hlen

/-! ### The encoder, with its failures -/

theorem cobsEncode_of_fails {src : Bytes} {cap : Nat} (h : src = [] ∨ cap < encMax src.length) :
    cobsEncode src cap = [] :=
  if_pos h

/-- Past its two tests COBS_ENC is its loop. -/
theorem cobsEncode_of_fits {src : Bytes} {cap : Nat} (hsrc : src ≠ []) (hcap : encMax src.length ≤ cap) :
    cobsEncode src cap = cobsEncodeLoop src [] :=
  if_neg (not_or.2 ⟨hsrc, Nat.not_lt.2 hcap⟩)

/-- Everything COBS_ENC can do with a present source. -/
theorem cobsEncode_cases (src : Bytes) (cap : Nat) :
    ((src = [] ∨ cap < encMax src.length) ∧ cobsEncode src cap = []) ∨
    (src ≠ [] ∧ encMax src.length ≤ cap ∧ cobsEncode src cap = cobsEncodeLoop src []) := by
  by_cases h : src = [] ∨ cap < encMax src.length
  · exact .inl ⟨h, cobsEncode_of_fails h⟩
  · obtain ⟨hsrc, hcap⟩ := not_or.1 h
    have hcap := Nat.not_lt.1 hcap
    exact .inr ⟨hsrc, hcap, cobsEncode_of_fits hsrc hcap⟩

theorem cobsEncode_eq_nil_iff (src : Bytes) (cap : Nat) :
    cobsEncode src cap = [] ↔ src = [] ∨ cap < encMax src.length := by
  refine ⟨fun hnil => ?_, cobsEncode_of_fails⟩
  obtain ⟨hfails, -⟩ | ⟨-, -, hloop⟩ := cobsEncode_cases src cap
  · exact hfails
  · exact absurd (hloop.symm.trans hnil) (cobsEncodeLoop_ne_nil src [])

theorem zero_notMem_cobsEncode (src : Bytes) (cap : Nat) : (0x00 : Byte) ∉ cobsEncode src cap := by
  obtain ⟨-, hnil⟩ | ⟨-, -, hloop⟩ := cobsEncode_cases src cap
  · simp [hnil]
  · rw [hloop]
    exact cobsEncodeLoop_no_zero src [] (.inl (by simp)) (by simp)

/-- A non-empty sequence is framed in at most `ENC_MAX` bytes (R179). -/
theorem length_cobsEncodeLoop {src : Bytes} (hsrc : src ≠ []) :
    src.length + 1 ≤ (cobsEncodeLoop src []).length ∧ (cobsEncodeLoop src []).length ≤ encMax src.length := by
  obtain ⟨hmin, hmax⟩ := cobsEncodeLoop_length src []
  have hpos : 0 < src.length := List.length_pos_of_ne_nil hsrc
  have hmax := hmax (.inl (by simp))
  simp only [List.length_nil, Nat.zero_add] at hmin hmax
  rw [encMax]
  omega

/-- Settles O46: the encoder fails by its two tests alone, and what its loop writes keeps the bounds. -/
theorem cobsEncOutput : Obligations.CobsEncOutput := by
  intro src cap s hlen
  refine ⟨_, exec_cobsEnc hlen cap s, cobsEncode_eq_nil_iff src cap, zero_notMem_cobsEncode src cap, ?_⟩
  obtain ⟨-, hnil⟩ | ⟨hsrc, hcap, hloop⟩ := cobsEncode_cases src cap
  · rw [hnil]
    exact ⟨Nat.zero_le cap, fun h => absurd rfl h⟩
  · rw [hloop]
    obtain ⟨hmin, hmax⟩ := length_cobsEncodeLoop hsrc
    exact ⟨hmax.trans hcap, fun _ => ⟨hmin, hmax⟩⟩

/-! ### The decoder as the encoder's inverse -/

/-- Past its two tests COBS_DEC is its loop, with no zero owed. -/
theorem cobsDecode_of_fits (P : Params) {src : Bytes} {cap : Nat} (hsrc : src ≠ []) (hcap : src.length - 1 ≤ cap) :
    cobsDecode P src cap = cobsDecodeAll P src false := by
  rw [cobsDecode_eq, if_neg (not_or.2 ⟨hsrc, Nat.not_lt.2 hcap⟩)]

/-- R187: a frame decodes to what it frames, with nothing behind it or a delimiter that pays no zero. -/
theorem cobsDecode_cobsEncode_append (P : Params) {src more : Bytes} {cap cap' : Nat} (hsrc : src ≠ [])
    (hcap : encMax src.length ≤ cap)
    (hmore : more = [] ∨ P.cobsZeroBeforeDelim = false ∧ ∃ after, more = 0x00 :: after)
    (hcap' : decMax (cobsEncode src cap ++ more).length ≤ cap') :
    cobsDecode P (cobsEncode src cap ++ more) cap' = src := by
  rw [cobsEncode_of_fits hsrc hcap] at hcap' ⊢
  have hframe : cobsEncodeLoop src [] ++ more ≠ [] :=
    List.append_ne_nil_of_left_ne_nil (cobsEncodeLoop_ne_nil src []) more
  rw [cobsDecode_of_fits P hframe hcap', cobsDecodeAll_encode P src [] more false (.inl (by simp)) hmore]
  rfl

theorem cobsDecode_cobsEncode (P : Params) {src : Bytes} {cap cap' : Nat} (hsrc : src ≠ [])
    (hcap : encMax src.length ≤ cap) (hcap' : decMax (cobsEncode src cap).length ≤ cap') :
    cobsDecode P (cobsEncode src cap) cap' = src := by
  have h := cobsDecode_cobsEncode_append P hsrc hcap (.inl rfl) (cap' := cap')
  rw [List.append_nil] at h
  exact h hcap'

/-- Settles O48: the inverse law at the encoder's least capacity; both operations fail on the empty sequence. -/
theorem cobsDecodeInvertsEncode : Obligations.CobsDecodeInvertsEncode :=
  ⟨fun P _ _ hsrc hcap => cobsDecode_cobsEncode P hsrc le_rfl hcap,
    fun P _ after _ hsrc hz hcap => cobsDecode_cobsEncode_append P hsrc le_rfl (.inr ⟨hz, after, rfl⟩) hcap,
    fun _ _ => ⟨cobsEncode_of_fails (.inl rfl), if_pos (.inl rfl)⟩⟩

/-- Settles O47: COBS_ENC delivered the encoder's frame, and the decoder inverts it. -/
theorem cobsDecInvertsEnc : Obligations.CobsDecInvertsEnc := by
  intro src cap cap' s t frame hsrc hcap hlenSrc hlenFrame henc hframe hcap'
  rw [exec_cobsEnc hlenSrc] at henc
  cases henc
  cases hframe
  rw [exec_cobsDec hlenFrame, cobsDecode_cobsEncode Config.params hsrc hcap hcap']

/-! ### The decoder's loop by the kind of its first block -/

theorem cobsDecodeAll_nil (P : Params) (pend : Bool) : cobsDecodeAll P [] pend = [] := rfl

/-- The delimiter ends the frame, and pays the zero owed only if the parameter says so (R183). -/
theorem cobsDecodeAll_delimiter (P : Params) (tail : Bytes) (pend : Bool) :
    cobsDecodeAll P (0x00 :: tail) pend = if pend && P.cobsZeroBeforeDelim then [0x00] else [] := by
  rw [cobsDecodeAll_cons, cobsBlock_zero, List.append_nil]

/-- Any other code byte pays the zero owed, copies its block and goes on behind it (R182, R184). -/
theorem cobsDecodeAll_run (P : Params) {code : Byte} (tail : Bytes) (pend : Bool) (hcode : code ≠ 0x00) :
    cobsDecodeAll P (code :: tail) pend = (if pend then [0x00] else []) ++ tail.take (code.toNat - 1) ++
      cobsDecodeAll P (tail.drop (code.toNat - 1)) (code != 0xFF) := by
  rw [cobsDecodeAll_cons, cobsBlock_run P tail pend hcode]
  by_cases hrest : tail.drop (code.toNat - 1) = []
  · rw [hrest, cobsDecodeAll_nil, if_pos rfl]
  · rw [if_neg hrest]

/-- `cobsDecode_induction` by the kind of the first block: a frame is empty, begins with the delimiter, or begins with a
block and goes on behind it. -/
theorem cobsFrame_induction (P : Params) {C : Bytes → Bool → Prop} (empty : ∀ pend, C [] pend)
    (delimiter : ∀ tail pend, C (0x00 :: tail) pend)
    (run : ∀ code tail pend, code ≠ 0x00 →
      C (tail.drop (code.toNat - 1)) (code != 0xFF) → C (code :: tail) pend) :
    ∀ src pend, C src pend := by
  refine cobsDecode_induction (P := P) empty fun code tail pend ih => ?_
  by_cases hcode : code = 0x00
  · subst hcode
    exact delimiter tail pend
  refine run code tail pend hcode ?_
  by_cases hrest : tail.drop (code.toNat - 1) = []
  · rw [hrest]
    exact empty _
  · exact ih _ _ (by rw [cobsBlock_run P tail pend hcode, if_neg hrest])

/-- The loop writes at most a byte for each byte of the frame but its first, and one for a zero owed before it. -/
theorem length_cobsDecodeAll_le (P : Params) : ∀ (src : Bytes) (pend : Bool),
    (cobsDecodeAll P src pend).length ≤ src.length - 1 + pend.toNat := by
  have hzero (b : Bool) : (if b then [(0x00 : Byte)] else []).length = b.toNat := by cases b <;> rfl
  refine cobsFrame_induction P (fun pend => Nat.zero_le _) (fun tail pend => ?_) fun code tail pend hcode ih => ?_
  · rw [cobsDecodeAll_delimiter, hzero]
    cases pend
    · exact Nat.zero_le _
    · exact (Bool.toNat_le _).trans (Nat.le_add_left _ _)
  · rw [cobsDecodeAll_run P tail pend hcode, List.length_append, List.length_append, hzero, List.length_take,
      List.length_cons]
    by_cases hrest : tail.drop (code.toNat - 1) = []
    · rw [hrest, cobsDecodeAll_nil, List.length_nil]
      omega
    · have howed := Bool.toNat_le (code != 0xFF)
      have hpos := List.length_pos_of_ne_nil hrest
      rw [List.length_drop] at ih hpos
      omega

/-- Settles O49: no zero is owed before a frame's first block. -/
theorem cobsDecBound : Obligations.CobsDecBound := by
  intro src cap s hlen
  refine ⟨_, exec_cobsDec hlen cap s, ?_⟩
  rw [cobsDecode_eq]
  split
  next hfails => exact ⟨Nat.zero_le _, Nat.zero_le _, fun _ => rfl⟩
  next hfits =>
    have hbound : (cobsDecodeAll Config.params src false).length ≤ src.length - 1 :=
      length_cobsDecodeAll_le Config.params src false
    exact ⟨hbound, hbound.trans (Nat.not_lt.1 (not_or.1 hfits).2), fun h => absurd h hfits⟩

/-- A frame without the delimiter never comes to the one block that reads the parameters. -/
theorem cobsDecodeAll_congr_params (P Q : Params) : ∀ (src : Bytes) (pend : Bool), (0x00 : Byte) ∉ src →
    cobsDecodeAll P src pend = cobsDecodeAll Q src pend := by
  refine cobsFrame_induction P (fun _ _ => rfl) (fun tail pend h => absurd List.mem_cons_self h)
    fun code tail pend hcode ih h => ?_
  rw [cobsDecodeAll_run P tail pend hcode, cobsDecodeAll_run Q tail pend hcode,
    ih fun hmem => h (List.mem_cons_of_mem _ (List.mem_of_mem_drop hmem))]

/-- Settles O50: the two tests read no parameter, and neither does the loop on such a frame. -/
theorem zeroFreeFramesDecodeAlike : Obligations.ZeroFreeFramesDecodeAlike := by
  intro P Q src cap h
  rw [cobsDecode_eq, cobsDecode_eq, cobsDecodeAll_congr_params P Q src false h]

/-! ### The code rows -/

/-- The row of a code byte is the decoding of the frame it begins. -/
theorem exec_of_encode_code {i : Instr} {c : Byte} (hf : i.format = .cobs) (hi : encode i = [c]) (s : State) :
    exec i s = decodeIssued c s := by
  obtain ⟨b, hb, hexec⟩ := exec_cobs hf
  obtain rfl : b = c := List.singleton_injective (hb.symm.trans hi)
  exact hexec s

/-- Settles O53: the row of `c` decodes `c` and what is issued behind it, once the step has taken `c`. -/
theorem codeRowsRunCobsDec : Obligations.CodeRowsRunCobsDec := by
  intro s c tail hformat hbytes
  obtain ⟨henc, hf, -⟩ := encode_decodeCode c
  have hdecode : decode s.issued.format s.issued.bytes = .ok (decodeCode c, tail) := by
    rw [hformat, hbytes]
    rfl
  rw [step_of_decode hdecode, exec_of_encode_code hf henc]
  rfl

/-- A code row on a frame that `LEN_MAX` admits delivers what the frame decodes to. -/
theorem exec_code_row {i : Instr} {c : Byte} {s : State} (hf : i.format = .cobs) (hi : encode i = [c])
    (hlen : withinLenMax Config.params (0x00 :: s.issued.bytes)) :
    exec i s = .next { s with
      issued := Issue.nothing
      result := .bytes (cobsDecode Config.params (c :: s.issued.bytes) s.issued.cap) } :=
  (exec_of_encode_code hf hi s).trans (if_pos hlen)

/-- Settles O52: the capacity test failed or not, the output is empty. -/
theorem delimiterRowEndsTheFrame : Obligations.DelimiterRowEndsTheFrame := by
  intro s hlen
  have hempty : cobsDecode Config.params (0x00 :: s.issued.bytes) s.issued.cap = [] := by
    rw [cobsDecode_eq, cobsDecodeAll_delimiter]
    exact ite_self _
  rw [exec_code_row rfl rfl hlen, hempty]

/-- A code byte is one more than the length of its block (R79), so it is not the delimiter. -/
theorem code_ne_zero_of_lt {code : Byte} {n : Nat} (h : n + 1 ≤ code.toNat) : code ≠ 0x00 := by
  rintro rfl
  exact absurd h (Nat.not_succ_le_zero n)

/-- A last block, cut short or not, is copied as far as it goes, and nothing is paid behind it (R184). -/
theorem cobsDecodeAll_lastBlock (P : Params) {code : Byte} {data : Bytes} (hcode : data.length + 1 ≤ code.toNat) :
    cobsDecodeAll P (code :: data) false = data := by
  have hk : data.length ≤ code.toNat - 1 := Nat.le_sub_one_of_lt hcode
  rw [cobsDecodeAll_run P data false (code_ne_zero_of_lt hcode), List.take_of_length_le hk, List.drop_of_length_le hk]
  exact List.append_nil data

/-- A whole block is copied, and behind it a zero is owed unless the run is full (R182). -/
theorem cobsDecodeAll_block (P : Params) {code : Byte} {data : Bytes} (hcode : data.length + 1 = code.toNat)
    (more : Bytes) :
    cobsDecodeAll P (code :: (data ++ more)) false = data ++ cobsDecodeAll P more (code != 0xFF) := by
  have hk : code.toNat - 1 = data.length := by rw [← hcode, Nat.add_sub_cancel]
  rw [cobsDecodeAll_run P _ false (code_ne_zero_of_lt hcode.le), hk, List.take_left, List.drop_left]
  rfl

/-- A zero owed is paid before a block. -/
theorem cobsDecodeAll_owed (P : Params) {code : Byte} (tail : Bytes) (hcode : code ≠ 0x00) :
    cobsDecodeAll P (code :: tail) true = 0x00 :: cobsDecodeAll P (code :: tail) false := by
  rw [cobsDecodeAll_run P tail true hcode, cobsDecodeAll_run P tail false hcode]
  rfl

/-- Settles O51: the capacity admits the frame and what stands behind its first block, so both decodings are the loop;
the clauses are the loop on a last block, and on a block with a block or the delimiter behind it. -/
theorem codeRowsCopyTheirBlock : Obligations.CodeRowsCopyTheirBlock := by
  intro s code next data more after hlen hcap hafter
  have hrow {i : Instr} {c : Byte} {out : Bytes} (hf : i.format = .cobs) (hi : encode i = [c])
      (hout : cobsDecodeAll Config.params (c :: s.issued.bytes) false = out) : exec i s = .next (after out) := by
    rw [exec_code_row hf hi hlen, cobsDecode_of_fits Config.params (List.cons_ne_nil _ _) hcap, hout, hafter]
  have hbehind (hbytes : s.issued.bytes = data ++ next :: more) :
      cobsDecode Config.params (next :: more) s.issued.cap = cobsDecodeAll Config.params (next :: more) false := by
    rw [hbytes, List.length_append, List.length_cons] at hcap
    exact cobsDecode_of_fits Config.params (List.cons_ne_nil _ _) (by rw [List.length_cons]; omega)
  refine ⟨fun _ hrun => ⟨fun hbytes hcode => ?_, fun hbytes hcode hnext => ?_, fun hbytes hcode => ?_⟩,
    fun hbytes hdata => ?_, fun hbytes hdata => ?_⟩
  · refine hrow rfl rfl ?_
    rw [hbytes, cobsDecodeAll_lastBlock Config.params hcode]
  · refine hrow rfl rfl ?_
    rw [hbehind hbytes, hbytes, cobsDecodeAll_block Config.params hcode, bne_iff_ne.2 hrun,
      cobsDecodeAll_owed Config.params more hnext]
  · refine hrow rfl rfl ?_
    rw [hbytes, cobsDecodeAll_block Config.params hcode, bne_iff_ne.2 hrun, cobsDecodeAll_delimiter, Bool.true_and]
  · refine hrow rfl rfl ?_
    rw [hbytes, cobsDecodeAll_lastBlock Config.params (Nat.succ_le_succ hdata)]
  · refine hrow rfl rfl ?_
    rw [hbehind hbytes, hbytes, cobsDecodeAll_block Config.params (congrArg (· + 1) hdata)]
    rfl

end Sys2Proof.Machine
end

section
/-! Proofs of the statements about the randomizer (spec/45_randomizer.md, R200 to R204): what RANDOMIZE writes byte by
byte, and that a second pass undoes the first. -/

namespace Sys2Proof.Machine

/-! ### The operation on a present buffer -/

/-- RANDOMIZE of a buffer that `LEN_MAX` admits writes `LFSR` and delivers the masked bytes (R201). -/
theorem exec_randomize {buf : Bytes} (hlen : withinLenMax Config.params buf) (s : State) :
    exec (.randomize (some buf)) s = .next { s with
      lfsr := (randomizeBytes Config.params buf s.lfsr).2
      result := .bytes (randomizeBytes Config.params buf s.lfsr).1 } :=
  (exec_next_iff (.randomize (some buf)) s _).2 ⟨hlen, rfl⟩

/-- The two cases of R201: a buffer too short to have an inside, or a first byte, an inside and a last byte. -/
theorem short_or_eq_ends_inside (buf : Bytes) :
    buf.length < 3 ∨ ∃ first inside last, inside ≠ [] ∧ buf = first :: inside ++ [last] := by
  obtain hshort | hlong := Nat.lt_or_ge buf.length 3
  · exact .inl hshort
  · match buf, hlong with
    | first :: second :: third :: tail, _ =>
      exact .inr ⟨first, (second :: third :: tail).dropLast, _, nofun,
        congrArg (first :: ·) (List.dropLast_append_getLast (List.cons_ne_nil second _)).symm⟩

/-! ### A second pass -/

/-- The first pass leaves the last byte, so the second seeds alike and masks the same inside again (R204). -/
theorem randomizeBytes_twice (P : Params) (buf : Bytes) (r : Bits7) :
    randomizeBytes P (randomizeBytes P buf r).1 (randomizeBytes P buf r).2
      = (buf, (randomizeBytes P buf r).2) := by
  obtain hshort | ⟨first, inside, last, hne, rfl⟩ := short_or_eq_ends_inside buf
  · rw [randomizeBytes_short P r hshort, randomizeBytes_short P r hshort]
  · have hmasked : (maskBytes P inside (lfsrLoad P last)).1 ≠ [] := by
      rwa [← List.length_pos_iff, maskBytes_length, List.length_pos_iff]
    rw [randomizeBytes_long P first last inside r hne, randomizeBytes_long P first last _ _ hmasked,
      maskBytes_twice]

/-- Settles O55: the second pass undoes the first, whatever register it starts from; its operand has the length of the
first's, so `LEN_MAX` admits it too. -/
theorem randomizeIsAnInvolution : Obligations.RandomizeIsAnInvolution := by
  refine ⟨fun P buf r r' => ⟨?_, ?_⟩, fun buf out s t hlen hexec hout => ?_⟩
  · rw [randomizeBytes_out_reg P _ r' (randomizeBytes P buf r).2, randomizeBytes_twice]
  · rw [randomizeBytes_twice]
  · rw [exec_randomize hlen] at hexec
    cases hexec
    cases hout
    have hlen' := withinLenMax_of_le Config.params (randomizeBytes_length Config.params buf s.lfsr).le hlen
    rw [exec_randomize hlen', randomizeBytes_twice]

/-! ### The masked bytes -/

/-- The bytes of the inside one by one: each is masked with the keystream byte of its place (R202). -/
theorem maskBytes_getElem?_keystream (P : Params) (seed : Byte) {inside : Bytes} {j : Nat} (hj : j < inside.length) :
    (maskBytes P inside (lfsrLoad P seed)).1[j]? = some (inside.getD j 0 ^^^ keystream P seed j) :=
  (maskBytes_spec P inside (lfsrLoad P seed)).2 j hj

/-- Behind the first byte and before the last stands the inside. -/
theorem getD_ends_inside (first last : Byte) {inside : Bytes} {j : Nat} (hj : j < inside.length) :
    (first :: inside ++ [last]).getD (j + 1) 0 = inside.getD j 0 :=
  List.getD_append inside [last] 0 j hj

/-- Settles O54: below three bytes both the buffer and `LFSR` stand; from there on the output is the first byte, the
masked inside and the last byte. -/
theorem randomizeMasksTheInside : Obligations.RandomizeMasksTheInside := by
  intro buf s hlen
  refine ⟨_, _, exec_randomize hlen s, fun hshort => ?_, fun hlong => ?_⟩
  · rw [randomizeBytes_short Config.params s.lfsr hshort]
    exact ⟨rfl, rfl⟩
  · obtain hshort | ⟨first, inside, last, hne, rfl⟩ := short_or_eq_ends_inside buf
    · exact absurd hlong hshort.not_ge
    have hlast : (first :: inside ++ [last]).getLastD 0 = last := List.getLastD_concat ..
    have hsize : (first :: inside ++ [last]).length = inside.length + 2 := by simp
    refine ⟨randomizeBytes_length _ _ _, ?_⟩
    rw [randomizeBytes_long Config.params first last inside s.lfsr hne, hlast, hsize]
    refine ⟨rfl, by rw [List.getLast?_concat, List.getLast?_concat],
      (maskBytes_spec Config.params inside _).1, fun i hfirst hi => ?_⟩
    obtain ⟨j, rfl⟩ := Nat.exists_eq_add_of_le' hfirst
    have hj : j < inside.length := by omega
    rw [getD_ends_inside first last hj, getD_ends_inside first last (by rwa [maskBytes_length]),
      List.getD_eq_getElem?_getD, maskBytes_getElem?_keystream Config.params last hj]
    rfl

end Sys2Proof.Machine
end

section
/-! Proofs of the statements about the composites (spec/46_composites.md, R210 to R219): a framed parse decodes, unmasks
and parses; a framed build frames the packet, masked or plain, in one byte more; and the one inverts the other. -/

namespace Sys2Proof.Machine

/-! ### The framed parses on present frames -/

theorem exec_cobsParse {frame : Bytes} (hlen : withinLenMax Config.params frame) (chEn cfgEn : Bool) (s : State) :
    exec (.cobsParse (some frame) chEn cfgEn) s
      = .next (s.deliverParsed (framedParse Config.params plainMiddle (some frame) chEn cfgEn s.lfsr)) :=
  if_pos hlen

theorem exec_randCobsParse {frame : Bytes} (hlen : withinLenMax Config.params frame) (chEn cfgEn : Bool) (s : State) :
    exec (.randCobsParse (some frame) chEn cfgEn) s = .next (s.deliverParsed
      (framedParse Config.params (randomizeBytes Config.params) (some frame) chEn cfgEn s.lfsr)) :=
  if_pos hlen

/-! ### The frame of one packet -/

section ShortFrames

variable {packet : Bytes} {cap : Nat}

theorem encMax_of_short {n : Nat} (hmin : 1 ≤ n) (hmax : n ≤ 254) : encMax n = n + 1 := by
  rw [encMax]
  omega

/-- A short packet needs one byte more, and nothing else makes its framing fail (R214). -/
theorem cobsEncode_eq_nil_iff_of_short (hmin : 1 ≤ packet.length) (hmax : packet.length ≤ 254) :
    cobsEncode packet cap = [] ↔ cap < packet.length + 1 := by
  rw [cobsEncode_eq_nil_iff, encMax_of_short hmin hmax, or_iff_right (List.ne_nil_of_length_pos hmin)]

/-- A capacity of the packet's own length is enough to decode its frame. -/
theorem cobsDecode_cobsEncode_of_short (P : Params) {cap' : Nat} (hne : cobsEncode packet cap ≠ [])
    (hmax : packet.length ≤ 254) (hcap' : packet.length ≤ cap') :
    cobsDecode P (cobsEncode packet cap) cap' = packet := by
  obtain ⟨-, hnil⟩ | ⟨hsrc, hcap, -⟩ := cobsEncode_cases packet cap
  · exact absurd hnil hne
  · refine cobsDecode_cobsEncode P hsrc hcap ?_
    rwa [decMax, cobsEncode_length hne hmax, Nat.add_sub_cancel]

end ShortFrames

/-! ### The middle steps -/

/-- What the composites need of the step between packet and frame: it keeps the length, and a second pass, from
whatever register, undoes the first. -/
structure UndoesItself (middle : Bytes → Bits7 → Bytes × Bits7) : Prop where
  length : ∀ raw r, (middle raw r).1.length = raw.length
  twice : ∀ raw r r', (middle (middle raw r).1 r').1 = raw

theorem plainMiddle_undoesItself : UndoesItself plainMiddle :=
  ⟨fun _ _ => rfl, fun _ _ _ => rfl⟩

/-- R204 is what makes the randomized parse the inverse of the randomized build. -/
theorem randomizeBytes_undoesItself (P : Params) : UndoesItself (randomizeBytes P) :=
  ⟨randomizeBytes_length P, fun raw r r' => (randomizeIsAnInvolution.1 P raw r r').1⟩

/-- From three bytes on RANDOMIZE leaves the register behind the keystream of the last byte (R201). -/
theorem randomizeBytes_reg (P : Params) {buf : Bytes} (r : Bits7) (hlong : 3 ≤ buf.length) :
    (randomizeBytes P buf r).2 = prngState P (lfsrLoad P (buf.getLastD 0)) (buf.length - 2) := by
  obtain hshort | ⟨first, inside, last, hne, rfl⟩ := short_or_eq_ends_inside buf
  · exact absurd hlong hshort.not_ge
  · have hlast : (first :: inside ++ [last]).getLastD 0 = last := List.getLastD_concat ..
    have hsize : (first :: inside ++ [last]).length - 2 = inside.length := by simp
    rw [randomizeBytes_long P first last inside r hne, hlast, hsize]
    exact (maskBytes_spec P inside _).1

/-! ### What a framed build makes parses back -/

/-- A framed build that reports success had a packet, and wrote the frame of what the middle step made of it. -/
theorem framedBuild_success {P : Params} {middle : Bytes → Bits7 → Bytes × Bits7} {b : Built} {cap n : Nat}
    {r : Bits7} {frame : Bytes}
    (hbuilt : builtResult (framedBuild P middle b cap r).1 = .built .none n frame) :
    b.status = .none ∧ frame ≠ [] ∧ frame = cobsEncode (middle b.out r).1 cap := by
  obtain ⟨hne, h⟩ | ⟨-, -, h⟩ | ⟨hnone, hframe, h⟩ := framedBuild_cases P middle b cap r <;>
    obtain ⟨hst, -, hout⟩ := Result.built.inj (h ▸ hbuilt)
  · exact absurd hst hne
  · obtain hw | hw := wrapperStatus_cases P.errEncodeFail <;> cases hw.symm.trans hst
  · exact ⟨hnone, hout ▸ hframe, hout.symm⟩

/-- Decoding and the second pass of the middle step undo the framing and the first pass, so that what is parsed is the
packet that was built; any `PARSE_BUF_CAP` holds it (R219). -/
theorem framedParse_of_framedBuild {P : Params} {middle : Bytes → Bits7 → Bytes × Bits7} (hm : UndoesItself middle)
    {b : Built} (hb : b.PacketOrError) {cap n : Nat} {r : Bits7} {frame : Bytes}
    (hbuilt : builtResult (framedBuild P middle b cap r).1 = .built .none n frame) :
    b.status = .none ∧ frame.length ≤ 20 ∧ (0x00 : Byte) ∉ frame ∧ ∀ chEn cfgEn r',
      (framedParse P middle (some frame) chEn cfgEn r').1 = parseBuffer P (some b.out) chEn cfgEn := by
  obtain ⟨hnone, hframe, rfl⟩ := framedBuild_success hbuilt
  obtain ⟨-, -, hmin, hmax⟩ := hb.resolve_right fun ⟨hne, _⟩ => hne hnone
  have hlen := hm.length b.out r
  have hdecode : cobsDecode P (cobsEncode (middle b.out r).1 cap) (parseBufCap P) = (middle b.out r).1 :=
    cobsDecode_cobsEncode_of_short P hframe (by omega) (by have := parseBufCap_ge P; omega)
  refine ⟨hnone, ?_, zero_notMem_cobsEncode _ cap, fun chEn cfgEn r' => ?_⟩
  · rw [cobsEncode_length hframe (by omega)]
    omega
  · obtain ⟨hnil, -⟩ | ⟨-, h⟩ := framedParse_cases P middle (cobsEncode (middle b.out r).1 cap) chEn cfgEn r'
    · rw [hdecode] at hnil
      rw [hnil, List.length_nil] at hlen
      omega
    · rw [h, hdecode, hm.twice]

theorem parsedResult_of_exec_parse {buf : Buffer} {chEn cfgEn : Bool} {s : State} {result : Result}
    (h : exec (.parse buf chEn cfgEn) s = .next { s with result := result }) :
    parsedResult (parseBuffer Config.params buf chEn cfgEn) = result :=
  (congrArg (·.result) ((exec_next_iff _ _ _).1 h).2).symm

/-- R154 for the packet of the intermediate buffer; success says that the values are of an admissible length. -/
theorem parse_of_buildOa {offset : Byte} {values : Bytes} {cap : Nat}
    (hnone : (buildOa Config.params offset (some values) cap).status = .none) (cfgEn : Bool) :
    parsedResult (parseBuffer Config.params (some (buildOa Config.params offset (some values) cap).out) true cfgEn)
      = .parsed .none (setChannels offset values) := by
  have hbuilt : builtResult (buildOa Config.params offset (some values) cap) = .built .none _ _ :=
    congrArg (Result.built · _ _) hnone
  obtain ⟨-, h⟩ | ⟨hmin, hmax, -⟩ := buildOa_cases Config.params offset values cap
  · rw [h] at hnone
    cases hnone
  · exact parsedResult_of_exec_parse
      (parseOfBuildRoundTrips.1 offset values _ cap _ cfgEn .reset _ .reset hmin hmax rfl hbuilt)

/-- R154 for the packet of the intermediate buffer; success says that key and values are of an admissible length. -/
theorem parse_of_buildCfg {key values : Bytes} {cap : Nat} (hkey : (0x00 : Byte) ∉ key)
    (hnone : (buildCfg Config.params (some key) (some values) cap).status = .none) (chEn : Bool) :
    parsedResult (parseBuffer Config.params (some (buildCfg Config.params (some key) (some values) cap).out) chEn true)
      = .parsed .none [.setConfig key (BitVec.ofNat 8 key.length) values (BitVec.ofNat 8 values.length)] := by
  have hbuilt : builtResult (buildCfg Config.params (some key) (some values) cap) = .built .none _ _ :=
    congrArg (Result.built · _ _) hnone
  obtain ⟨-, h⟩ | ⟨hmin, hmax, -⟩ := buildCfg_cases Config.params key values cap
  · rw [h] at hnone
    cases hnone
  · exact parsedResult_of_exec_parse
      (parseOfBuildRoundTrips.2 key values _ cap _ chEn .reset _ .reset hmin hmax hkey rfl hbuilt)

/-- What R219 says of one framed build and the framed parse of its output. -/
def ParsesBack (build : Instr) (parse : Bytes → Instr) (events : List Event) : Prop :=
  ∀ (s t u : State) (n : Nat) (frame : Bytes), exec build s = .next t → t.result = .built .none n frame →
    frame.length ≤ 20 ∧ (0x00 : Byte) ∉ frame ∧
      ∃ w, exec (parse frame) u = .next w ∧ w.result = .parsed .none events

/-- A framed build parses back when its packet does. -/
theorem parsesBack_of_packet {build : Instr} {parse : Bytes → Instr} {events : List Event}
    {middle : Bytes → Bits7 → Bytes × Bits7} {b : Built} {cap : Nat} {chEn cfgEn : Bool} (hm : UndoesItself middle)
    (hb : b.PacketOrError)
    (hbuild : ∀ s, exec build s = .next (s.deliverBuilt (framedBuild Config.params middle b cap s.lfsr)))
    (hparse : ∀ frame s, withinLenMax Config.params frame → exec (parse frame) s
      = .next (s.deliverParsed (framedParse Config.params middle (some frame) chEn cfgEn s.lfsr)))
    (hpacket : b.status = .none →
      parsedResult (parseBuffer Config.params (some b.out) chEn cfgEn) = .parsed .none events) :
    ParsesBack build parse events := by
  intro s t u n frame hexec hresult
  rw [hbuild] at hexec
  cases hexec
  obtain ⟨hnone, hlen, hzero, hback⟩ := framedParse_of_framedBuild hm hb hresult
  refine ⟨hlen, hzero, _, hparse frame u (withinLenMax_of_small _ (by omega)), ?_⟩
  exact (congrArg parsedResult (hback chEn cfgEn u.lfsr)).trans (hpacket hnone)

/-- Settles O60: each composite is its middle step on the packet of the intermediate buffer, and that packet parses back
(O45). -/
theorem framedBuildParsesBack : Obligations.FramedBuildParsesBack := by
  have hplain := plainMiddle_undoesItself
  have hmask := randomizeBytes_undoesItself Config.params
  refine ⟨fun offset values frame cap n cfgEn s t u => ?_, fun key values frame cap n chEn s t u hkey => ?_⟩
  · have hb := buildOa_packetOrError Config.params offset (some values) Config.rawBufCap
    have hback hnone := parse_of_buildOa (offset := offset) (values := values) (cap := Config.rawBufCap) hnone cfgEn
    exact ⟨parsesBack_of_packet hplain hb (fun _ => rfl) (fun _ _ hlen => exec_cobsParse hlen ..) hback s t u n frame,
      parsesBack_of_packet hmask hb (fun _ => rfl) (fun _ _ hlen => exec_randCobsParse hlen ..) hback s t u n frame⟩
  · have hb := buildCfg_packetOrError Config.params (some key) (some values) Config.rawBufCap
    have hback hnone := parse_of_buildCfg (values := values) (cap := Config.rawBufCap) hkey hnone chEn
    exact ⟨parsesBack_of_packet hplain hb (fun _ => rfl) (fun _ _ hlen => exec_cobsParse hlen ..) hback s t u n frame,
      parsesBack_of_packet hmask hb (fun _ => rfl) (fun _ _ hlen => exec_randCobsParse hlen ..) hback s t u n frame⟩

/-! ### Framed parses -/

/-- What is decoded is no longer than the frame, so `LEN_MAX` admits it too. -/
theorem withinLenMax_cobsDecode {frame : Bytes} (hlen : withinLenMax Config.params frame) (cap : Nat) :
    withinLenMax Config.params (cobsDecode Config.params frame cap) := by
  obtain ⟨out, hout, hbound, -⟩ := cobsDecBound frame cap .reset hlen
  rw [exec_cobsDec hlen] at hout
  cases hout
  exact withinLenMax_of_le _ (hbound.trans (Nat.sub_le _ _)) hlen

/-- Everything a framed parse can do with a frame that `LEN_MAX` admits: its own failure, or PARSE of what the middle
step makes of the decoded bytes, with the register as that step leaves it (R211, R217). -/
theorem exec_framedParse {i : Instr} {middle : Bytes → Bits7 → Bytes × Bits7} (hm : UndoesItself middle)
    {frame raw : Bytes} {chEn cfgEn : Bool} {s : State} (hlen : withinLenMax Config.params frame)
    (hraw : raw = cobsDecode Config.params frame (parseBufCap Config.params))
    (hexec : exec i s = .next (s.deliverParsed (framedParse Config.params middle (some frame) chEn cfgEn s.lfsr))) :
    (raw = [] → exec i s = .next { s with result := .parsed (wrapperStatus Config.params.errDecodeFail) [] }) ∧
    (raw ≠ [] → exec i s = .next { s with
        lfsr := (middle raw s.lfsr).2
        result := parsedResult (parseBuffer Config.params (some (middle raw s.lfsr).1) chEn cfgEn) } ∧
      exec i s = exec (.parse (some (middle raw s.lfsr).1) chEn cfgEn) { s with lfsr := (middle raw s.lfsr).2 }) := by
  have hlenClear : withinLenMax Config.params (middle raw s.lfsr).1 :=
    withinLenMax_of_le _ (hm.length raw s.lfsr).le (hraw ▸ withinLenMax_cobsDecode hlen _)
  subst hraw
  obtain ⟨hnil, h⟩ | ⟨hne, h⟩ := framedParse_cases Config.params middle frame chEn cfgEn s.lfsr
  · rw [hexec, h]
    exact ⟨fun _ => rfl, fun hne => absurd hnil hne⟩
  · rw [hexec, h, exec_parse (buf := some _) hlenClear]
    exact ⟨fun hnil => absurd hnil hne, fun _ => ⟨rfl, rfl⟩⟩

/-- Settles O56: the plain middle step changes nothing, and a frame that might decode to more than the capacity is not
decoded. -/
theorem cobsParseDecodesThenParses : Obligations.CobsParseDecodesThenParses := by
  refine ⟨?_, fun P frame hlong => ?_⟩
  · rintro frame raw chEn cfgEn s p hlen hraw rfl
    exact exec_framedParse plainMiddle_undoesItself hlen hraw (exec_cobsParse hlen ..)
  · rw [cobsDecode_eq, if_pos (.inr (by omega))]

/-- Settles O57: the middle step is RANDOMIZE, which writes the register from three bytes on, and PARSE leaves it. -/
theorem randCobsParseUnmasksThenParses : Obligations.RandCobsParseUnmasksThenParses := by
  rintro frame raw clear v chEn cfgEn s p hlen hraw hclear rfl
  obtain rfl : clear = (randomizeBytes Config.params raw s.lfsr).1 := congrArg Prod.fst hclear
  obtain rfl : v = (randomizeBytes Config.params raw s.lfsr).2 := congrArg Prod.snd hclear
  obtain ⟨hempty, hparse⟩ :=
    exec_framedParse (randomizeBytes_undoesItself Config.params) hlen hraw (exec_randCobsParse hlen chEn cfgEn s)
  exact ⟨hempty, hparse, fun hshort => congrArg Prod.snd (randomizeBytes_short Config.params s.lfsr hshort),
    randomizeBytes_reg Config.params s.lfsr⟩

/-! ### Framed builds -/

/-- What a builder hands to a composite: INVALID_SIZE of ill-sized operands, of good ones the packet of a header and a
payload of 2 to 17 bytes (R161, R164). -/
def Built.IsPacketOf (P : Params) (h : Byte) (payload : Bytes) (good : Bool) (b : Built) : Prop :=
  (good = false ∧ b.status = .invalidSize) ∨
    (good = true ∧ 2 ≤ payload.length ∧ payload.length ≤ 17 ∧
      b = ⟨.none, payload.length + 2, rawPacket P h payload⟩)

theorem buildOa_isPacketOf (P : Params) (offset : Byte) (values : Bytes) :
    (buildOa P offset (some values) Config.rawBufCap).IsPacketOf P (oaHeader values.length) (offset :: values)
      (decide (1 ≤ values.length ∧ values.length ≤ 16)) := by
  obtain ⟨hsize, hb⟩ | ⟨hmin, hmax, -⟩ := buildOa_cases P offset values Config.rawBufCap
  · exact .inl ⟨decide_eq_false (by omega), congrArg Built.status hb⟩
  · have hlen : (offset :: values).length = values.length + 1 := List.length_cons
    have hfits : (offset :: values).length + 2 ≤ 19 := by omega
    exact .inr ⟨decide_eq_true ⟨hmin, hmax⟩, by omega, by omega,
      (buildOa_of_length P offset _ hmin hmax).trans (finishBuild_success rfl hfits)⟩

theorem buildCfg_isPacketOf (P : Params) (key values : Bytes) :
    (buildCfg P (some key) (some values) Config.rawBufCap).IsPacketOf P (cfgHeader (key.length + 1 + values.length))
      (key ++ 0x00 :: values)
      (decide (2 ≤ (key ++ 0x00 :: values).length ∧ (key ++ 0x00 :: values).length ≤ 17)) := by
  have hlen := length_configPayload key values
  obtain ⟨hsize, hb⟩ | ⟨hmin, hmax, -⟩ := buildCfg_cases P key values Config.rawBufCap
  · exact .inl ⟨decide_eq_false (by omega), congrArg Built.status hb⟩
  · have hfits : (key ++ 0x00 :: values).length + 2 ≤ 19 := by omega
    exact .inr ⟨decide_eq_true (by omega), by omega, by omega,
      (buildCfg_of_length P _ hmin hmax).trans (finishBuild_success rfl hfits)⟩

theorem rawPacket_length (P : Params) (h : Byte) (payload : Bytes) :
    (rawPacket P h payload).length = payload.length + 2 := by
  simp [rawPacket]

/-- RANDOMIZE of a packet: the masked bytes do not read the register, and it ends behind the keystream of the checksum
byte, one keystream byte for each of the payload (R202, R218). -/
theorem randomizeBytes_rawPacket (P : Params) {h : Byte} {payload : Bytes} (r : Bits7) (hmin : 1 ≤ payload.length) :
    randomizeBytes P (rawPacket P h payload) r = ((randomizeBytes P (rawPacket P h payload) 0).1,
      prngState P (lfsrLoad P (ck P (h :: payload) 0)) payload.length) := by
  have hlast : (rawPacket P h payload).getLastD 0 = ck P (h :: payload) 0 := List.getLastD_concat ..
  have hlen := rawPacket_length P h payload
  refine Prod.ext (randomizeBytes_out_reg P _ r 0) ?_
  rw [randomizeBytes_reg P r (by omega), hlast, hlen, Nat.add_sub_cancel]

section FramedBuild

variable {middle : Bytes → Bits7 → Bytes × Bits7} {h : Byte} {payload masked : Bytes} {good : Bool} {b : Built}

/-- Every case of a framed build: the operands decide between INVALID_SIZE and a packet, the capacity between the
packet's frame and the failure of the encode step, and the register is the middle step's as soon as there is a packet
(R214, R215, R218). -/
theorem framedBuild_of_isPacketOf {P : Params} (hm : UndoesItself middle) (hb : b.IsPacketOf P h payload good)
    (cap : Nat) {r v : Bits7} (hmasked : 2 ≤ payload.length → middle (rawPacket P h payload) r = (masked, v)) :
    (good = false → framedBuild P middle b cap r = (⟨.invalidSize, cap, []⟩, r)) ∧
    (good = true → cap < payload.length + 3 →
      framedBuild P middle b cap r = (⟨wrapperStatus P.errEncodeFail, cap, []⟩, v)) ∧
    (good = true → payload.length + 3 ≤ cap → ∃ frame,
      framedBuild P middle b cap r = (⟨.none, payload.length + 3, frame⟩, v) ∧
      frame = cobsEncode masked cap ∧ (0x00 : Byte) ∉ frame ∧ frame.length = payload.length + 3 ∧
      cobsDecode P frame 19 = masked) := by
  obtain ⟨rfl, hst⟩ | ⟨rfl, hmin, hmax, rfl⟩ := hb
  · refine ⟨fun _ => ?_, nofun, nofun⟩
    rw [framedBuild, if_pos (by rw [hst]; nofun), hst]
  · have hmid := hmasked hmin
    have hlen : masked.length = payload.length + 2 :=
      calc masked.length = (middle (rawPacket P h payload) r).1.length := by rw [hmid]
        _ = payload.length + 2 := (hm.length _ r).trans (rawPacket_length P h payload)
    have hnil : cobsEncode masked cap = [] ↔ cap < masked.length + 1 :=
      cobsEncode_eq_nil_iff_of_short (by omega) (by omega)
    have hcases := framedBuild_cases P middle ⟨.none, payload.length + 2, rawPacket P h payload⟩ cap r
    simp only [hmid] at hcases
    obtain ⟨hne, -⟩ | ⟨-, hfail, hbuild⟩ | ⟨-, hframe, hbuild⟩ := hcases
    · exact absurd rfl hne
    · have hcap := hnil.1 hfail
      exact ⟨nofun, fun _ _ => hbuild, fun _ _ => by omega⟩
    · have hcap := mt hnil.2 hframe
      have hsize : (cobsEncode masked cap).length = payload.length + 3 := by
        rw [cobsEncode_length hframe (by omega), hlen]
      have hdecode := cobsDecode_cobsEncode_of_short P (cap' := 19) hframe (by omega) (by omega)
      exact ⟨nofun, fun _ _ => by omega,
        fun _ _ => ⟨_, by rw [hbuild, hsize], rfl, zero_notMem_cobsEncode masked cap, hsize, hdecode⟩⟩

/-- The same cases of an instruction that is a framed build. -/
theorem exec_framedBuild {i : Instr} {s : State} {cap : Nat} {v : Bits7} (hm : UndoesItself middle)
    (hi : ∃ b : Built, b.IsPacketOf Config.params h payload good ∧
      exec i s = .next (s.deliverBuilt (framedBuild Config.params middle b cap s.lfsr)))
    (hmasked : 2 ≤ payload.length → middle (rawPacket Config.params h payload) s.lfsr = (masked, v)) :
    (good = false → exec i s = .next { s with result := .built .invalidSize cap [] }) ∧
    (good = true → cap < payload.length + 3 → exec i s = .next { s with
      lfsr := v, result := .built (wrapperStatus Config.params.errEncodeFail) cap [] }) ∧
    (good = true → payload.length + 3 ≤ cap → ∃ frame,
      exec i s = .next { s with lfsr := v, result := .built .none (payload.length + 3) frame } ∧
      frame = cobsEncode masked cap ∧ (0x00 : Byte) ∉ frame ∧ frame.length = payload.length + 3 ∧
      cobsDecode Config.params frame 19 = masked) := by
  obtain ⟨b, hb, hexec⟩ := hi
  obtain ⟨hbad, hsmall, hfits⟩ := framedBuild_of_isPacketOf hm hb cap hmasked
  rw [hexec]
  refine ⟨fun hg => by rw [hbad hg]; rfl, fun hg hcap => by rw [hsmall hg hcap]; rfl, fun hg hcap => ?_⟩
  obtain ⟨frame, hbuild, hframe⟩ := hfits hg hcap
  exact ⟨frame, by rw [hbuild]; rfl, hframe⟩

end FramedBuild

/-- Settles O58: the plain middle step hands on the packet and the register as they are. -/
theorem cobsBuildFramesThePacket : Obligations.CobsBuildFramesThePacket := by
  intro i h payload cap s good hi
  refine exec_framedBuild (middle := plainMiddle) (v := s.lfsr) plainMiddle_undoesItself ?_ fun _ => rfl
  obtain ⟨offset, values, rfl, rfl, rfl, rfl⟩ | ⟨key, values, rfl, rfl, rfl, rfl⟩ := hi
  · exact ⟨_, buildOa_isPacketOf Config.params offset values, rfl⟩
  · exact ⟨_, buildCfg_isPacketOf Config.params key values, rfl⟩

/-- Settles O59: the middle step is RANDOMIZE of the packet (`randomizeBytes_rawPacket`). -/
theorem randCobsBuildMasksThenFrames : Obligations.RandCobsBuildMasksThenFrames := by
  rintro i h payload cap s good _ hi rfl
  refine exec_framedBuild (randomizeBytes_undoesItself Config.params) ?_ fun hmin =>
    randomizeBytes_rawPacket Config.params s.lfsr (Nat.le_of_succ_le hmin)
  obtain ⟨offset, values, rfl, rfl, rfl, rfl⟩ | ⟨key, values, rfl, rfl, rfl, rfl⟩ := hi
  · exact ⟨_, buildOa_isPacketOf Config.params offset values, rfl⟩
  · exact ⟨_, buildCfg_isPacketOf Config.params key values, rfl⟩

end Sys2Proof.Machine
end

section
/-! Proof of the statement about the writers of `LFSR` (spec/10_state.md, R30; spec/60_exceptions.md, R239): a masking
writes it from three bytes on, and a composite only when it comes to its masking. -/

namespace Sys2Proof.Machine

theorem length_of_randomizeBytes_reg_ne {P : Params} {buf : Bytes} {r : Bits7}
    (h : (randomizeBytes P buf r).2 ≠ r) : 3 ≤ buf.length := by
  by_contra hshort
  exact h (congrArg Prod.snd (randomizeBytes_short P r (Nat.lt_of_not_le hshort)))

/-- A parse composite that writes the register does so in its middle step, on what was decoded. -/
theorem middle_of_framedParse_reg_ne {P : Params} {middle : Bytes → Bits7 → Bytes × Bits7} {frame : Buffer}
    {chEn cfgEn : Bool} {r : Bits7} (h : (framedParse P middle frame chEn cfgEn r).2 ≠ r) :
    ∃ f, frame = some f ∧ (middle (cobsDecode P f (parseBufCap P)) r).2 ≠ r := by
  cases frame with
  | none => exact absurd rfl h
  | some f =>
    obtain ⟨-, hp⟩ | ⟨-, hp⟩ := framedParse_cases P middle f chEn cfgEn r <;> rw [hp] at h
    · exact absurd rfl h
    · exact ⟨f, rfl, h⟩

/-- A build composite that writes the register has built its packet. -/
theorem status_of_framedBuild_reg_ne {P : Params} {middle : Bytes → Bits7 → Bytes × Bits7} {raw : Built} {cap : Nat}
    {r : Bits7} (h : (framedBuild P middle raw cap r).2 ≠ r) : raw.status = .none := by
  obtain ⟨-, hb⟩ | ⟨hnone, -⟩ | ⟨hnone, -⟩ := framedBuild_cases P middle raw cap r
  · exact absurd (congrArg Prod.snd hb) h
  · exact hnone
  · exact hnone

/-- BUILD_OA succeeds on a present sequence of 1 to 16 values only (R161). -/
theorem operand_of_buildOa_success {P : Params} {offset : Byte} {values : Buffer} {cap : Nat}
    (h : (buildOa P offset values cap).status = .none) :
    ∃ v, values = some v ∧ 1 ≤ v.length ∧ v.length ≤ 16 := by
  cases values with
  | none => cases h
  | some v =>
    obtain ⟨-, hb⟩ | ⟨hmin, hmax, -⟩ := buildOa_cases P offset v cap
    · rw [hb] at h
      cases h
    · exact ⟨v, rfl, hmin, hmax⟩

/-- BUILD_CFG succeeds on a present key and values that make a payload of 2 to 17 bytes only (R164). -/
theorem operands_of_buildCfg_success {P : Params} {key values : Buffer} {cap : Nat}
    (h : (buildCfg P key values cap).status = .none) :
    ∃ k v, key = some k ∧ values = some v ∧ 2 ≤ k.length + 1 + v.length ∧ k.length + 1 + v.length ≤ 17 := by
  match key, values with
  | none, _ => cases h
  | some _, none => cases h
  | some k, some v =>
    obtain ⟨-, hb⟩ | ⟨hmin, hmax, -⟩ := buildCfg_cases P k v cap
    · rw [hb] at h
      cases h
    · exact ⟨k, v, rfl, rfl, hmin, hmax⟩

/-- Settles O9: the register after an instruction is `instrOutcome`'s, and that is another one in these cases only. -/
theorem lfsrIsWrittenOnlyWhereTheTableSays : Obligations.LfsrIsWrittenOnlyWhereTheTableSays := by
  intro i s t hexec hwrites
  obtain ⟨-, rfl⟩ := (exec_next_iff i s t).1 hexec
  replace hwrites : (instrOutcome Config.params s.issued s.lfsr i).2 ≠ s.lfsr := hwrites
  cases i with
  | prngInit seed => exact .inl ⟨seed, rfl⟩
  | prngNext => exact .inr (.inl rfl)
  | randomize buf =>
    cases buf with
    | none => exact absurd rfl hwrites
    | some b => exact .inr (.inr (.inl ⟨b, rfl, length_of_randomizeBytes_reg_ne hwrites⟩))
  | randCobsParse frame chEn cfgEn =>
    obtain ⟨f, rfl, hmask⟩ := middle_of_framedParse_reg_ne hwrites
    exact .inr (.inr (.inr (.inl ⟨f, chEn, cfgEn, rfl, length_of_randomizeBytes_reg_ne hmask⟩)))
  | randCobsBuildOa offset values cap =>
    obtain ⟨v, rfl, hsize⟩ := operand_of_buildOa_success (status_of_framedBuild_reg_ne hwrites)
    exact .inr (.inr (.inr (.inr (.inl ⟨offset, v, cap, rfl, hsize⟩))))
  | randCobsBuildCfg key values cap =>
    obtain ⟨k, v, rfl, rfl, hsize⟩ := operands_of_buildCfg_success (status_of_framedBuild_reg_ne hwrites)
    exact .inr (.inr (.inr (.inr (.inr ⟨k, v, cap, rfl, hsize⟩))))
  | cobsParse frame chEn cfgEn => exact absurd (framedParse_plain Config.params frame chEn cfgEn s.lfsr) hwrites
  | cobsBuildOa | cobsBuildCfg => exact absurd (framedBuild_plain Config.params _ _ s.lfsr) hwrites
  | cksum b | cobsEnc b | cobsDec b => cases b <;> exact absurd rfl hwrites
  | _ => exact absurd rfl hwrites

end Sys2Proof.Machine
end

section
/-! Proof of the statement about `CK_SENS` (spec/40_checksum.md, R115). -/

namespace Sys2Proof.Machine

/-- Settles O21: the changed byte is seen in its own step, and no later step hides it. -/
theorem sensitiveChecksumSeesOneByte : Obligations.SensitiveChecksumSeesOneByte :=
  fun _ front back _ _ seed hsens hb => ck_ne_of_byte_ne hsens hb front back seed

end Sys2Proof.Machine
end

section
/-! Proofs of the statements about the generator's period (spec/41_prng.md, R120, R123, R128): the orbit of one state has
127 states since 127 is prime, so it is all non-zero states, and a keystream byte tells the register it came from. -/

namespace Sys2Proof.Machine

/-! ### The cycle of the single-bit step -/

/-- The state a shift leads to, without the bit it emits (R122). -/
def lfsrNext (P : Params) (r : Bits7) : Bits7 := (lfsrBit P r).1

/-- Of the parameters, the next state reads the direction and the taps only. -/
theorem lfsrNext_eq (P : Params) : lfsrNext P = lfsrNext { testParams with lfsrTaps := P.lfsrTaps } := rfl

theorem lfsrSteps_eq_iterate (P : Params) (r : Bits7) : ∀ n, lfsrSteps P r n = (lfsrNext P)^[n] r
  | 0 => rfl
  | n + 1 => by
    rw [Function.iterate_succ_apply', ← lfsrSteps_eq_iterate P r n]
    rfl

theorem lfsrNext_iterate_ne_zero (P : Params) {r : Bits7} (hr : r ≠ 0) : ∀ n, (lfsrNext P)^[n] r ≠ 0
  | 0 => hr
  | n + 1 => lfsrNext_iterate_ne_zero P (lfsrBit_ne_zero P hr) n

/-- The one orbit that is computed: from state 1, 127 steps lead back and one step does not. -/
theorem lfsrNext_orbit_one (P : Params) : (lfsrNext P)^[127] 1 = 1 ∧ lfsrNext P 1 ≠ 1 := by
  have key : ∀ taps, (lfsrNext { testParams with lfsrTaps := taps })^[127] 1 = 1 ∧
      lfsrNext { testParams with lfsrTaps := taps } 1 ≠ 1 := by
    intro taps
    cases taps <;> decide +kernel
  rw [lfsrNext_eq]
  exact key _

/-- The period of state 1 divides 127, which is prime. -/
theorem minimalPeriod_lfsrNext_one (P : Params) : Function.minimalPeriod (lfsrNext P) 1 = 127 := by
  obtain ⟨hperiod, hmoves⟩ := lfsrNext_orbit_one P
  have : Fact (Nat.Prime 127) := ⟨by norm_num⟩
  exact Function.minimalPeriod_eq_prime hperiod hmoves

/-- An orbit of 127 states is all non-zero states: its states are different and not 0, and there are no more (R123). -/
theorem exists_lfsrNext_iterate_of_period (P : Params) {x r : Bits7} (hx : x ≠ 0) (hr : r ≠ 0)
    (hperiod : Function.minimalPeriod (lfsrNext P) x = 127) : ∃ n < 127, (lfsrNext P)^[n] x = r := by
  have hinj : Set.InjOn ((lfsrNext P)^[·] x) (Finset.range 127) := by
    rw [Finset.coe_range, ← hperiod]
    exact Function.iterate_injOn_Iio_minimalPeriod
  have hmaps : Set.MapsTo ((lfsrNext P)^[·] x) (Finset.range 127) (Finset.univ.erase (0 : Bits7)) := fun n _ =>
    Finset.mem_erase.2 ⟨lfsrNext_iterate_ne_zero P hx n, Finset.mem_univ _⟩
  have hcard : (Finset.univ.erase (0 : Bits7)).card ≤ (Finset.range 127).card := by
    rw [Finset.card_erase_of_mem (Finset.mem_univ 0), Finset.card_univ, Fintype.card_congr BitVec.equivFin.toEquiv]
    simp
  obtain ⟨n, hn, h⟩ :=
    Finset.surjOn_of_injOn_of_card_le _ hmaps hinj hcard (Finset.mem_erase.2 ⟨hr, Finset.mem_univ r⟩)
  exact ⟨n, Finset.mem_range.1 hn, h⟩

/-- Every non-zero state stands on the orbit of 1, so its period is that of 1. -/
theorem minimalPeriod_lfsrNext (P : Params) {r : Bits7} (hr : r ≠ 0) :
    Function.minimalPeriod (lfsrNext P) r = 127 := by
  have hone := minimalPeriod_lfsrNext_one P
  obtain ⟨n, -, rfl⟩ := exists_lfsrNext_iterate_of_period P (by decide) hr hone
  rw [Function.minimalPeriod_apply_iterate (Function.minimalPeriod_pos_iff_mem_periodicPts.1 (by omega)), hone]

/-- Every state comes again after 127 steps: 0 stays, and 127 is the period of any other state. -/
theorem lfsrNext_iterate_127 (P : Params) (r : Bits7) : (lfsrNext P)^[127] r = r := by
  by_cases hr : r = 0
  · subst hr
    exact Function.iterate_fixed (congrArg Prod.fst (lfsrBit_zero P)) 127
  · rw [← minimalPeriod_lfsrNext P hr, Function.iterate_minimalPeriod]

theorem lfsrNext_injective (P : Params) : Function.Injective (lfsrNext P) :=
  Function.LeftInverse.injective (g := (lfsrNext P)^[126]) (lfsrNext_iterate_127 P)

/-- Settles O25: the return after 127 steps makes a step injective, and one orbit is all non-zero states. -/
theorem lfsrBitIsOneCycle : Obligations.LfsrBitIsOneCycle := by
  intro P
  simp only [lfsrSteps_eq_iterate]
  exact ⟨fun _ _ h => lfsrNext_injective P h, lfsrBit_zero P,
    fun _ _ hr hr' => exists_lfsrNext_iterate_of_period P hr hr' (minimalPeriod_lfsrNext P hr),
    lfsrNext_iterate_127 P⟩

/-! ### A byte tells the register it came from -/

/-- Where the bit stands that was shifted in `k` steps before the latest: a left shift takes it up from place 0, a right
shift down from place 6 (R123). -/
def agePlace (taps : TapChoice) (k : Nat) : Nat := if tapLeft taps then k else 6 - k

theorem exists_agePlace_eq (taps : TapChoice) {p : Nat} (hp : p < 7) : ∃ j < 7, agePlace taps (6 - j) = p := by
  unfold agePlace
  cases tapLeft taps with
  | true => exact ⟨6 - p, by omega, by simp; omega⟩
  | false => exact ⟨p, hp, by simp; omega⟩

/-- A step moves every bit but the oldest one place on. -/
theorem getLsbD_lfsrNext_succ (P : Params) (r : Bits7) {k : Nat} (hk : k < 6) :
    (lfsrNext P r).getLsbD (agePlace P.lfsrTaps (k + 1)) = r.getLsbD (agePlace P.lfsrTaps k) := by
  unfold lfsrNext lfsrBit agePlace
  cases tapLeft P.lfsrTaps with
  | true =>
    simpa using fun _ => Nat.succ_lt_succ hk
  | false =>
    obtain ⟨p, hp, hplace, hnext⟩ : ∃ p < 6, 6 - (k + 1) = p ∧ 6 - k = p + 1 := ⟨5 - k, by omega⟩
    simp only [hplace, hnext]
    simp [hp, Nat.add_comm 1 p]

/-- A step shifts the fed-back bit in. -/
theorem getLsbD_lfsrNext_zero (P : Params) (r : Bits7) :
    (lfsrNext P r).getLsbD (agePlace P.lfsrTaps 0)
      = (r.getLsbD (tapA P.lfsrTaps) ^^ r.getLsbD (tapB P.lfsrTaps)) := by
  unfold lfsrNext lfsrBit agePlace
  cases tapLeft P.lfsrTaps with
  | true => simp
  | false => simp

/-- The bit of age `k` is `m` steps later the bit of age `k + m`, while the register holds it. -/
theorem getLsbD_lfsrNext_iterate (P : Params) (r : Bits7) (k : Nat) : ∀ m, k + m < 7 →
    ((lfsrNext P)^[m] r).getLsbD (agePlace P.lfsrTaps (k + m)) = r.getLsbD (agePlace P.lfsrTaps k)
  | 0, _ => rfl
  | m + 1, hm => by
    rw [Function.iterate_succ_apply', ← Nat.add_assoc, getLsbD_lfsrNext_succ P _ (by omega),
      getLsbD_lfsrNext_iterate P r k m (by omega)]

/-- The number of steps after which the register holds just the first seven emitted bits: none when the bits shifted out
are emitted, seven when the bits fed back are. -/
def emitDelay : OutSelect → Nat
  | .shiftedOut => 0
  | .fedBack => 7

/-- The first seven emitted bits are the bits of one later register. -/
theorem lfsrBit_iterate_bit (P : Params) (r : Bits7) {j : Nat} (hj : j < 7) :
    (lfsrBit P ((lfsrNext P)^[j] r)).2
      = ((lfsrNext P)^[emitDelay P.lfsrOut] r).getLsbD (agePlace P.lfsrTaps (6 - j)) := by
  have hage : 6 - j + j = 6 := by omega
  cases ho : P.lfsrOut with
  | shiftedOut => calc
      (lfsrBit P ((lfsrNext P)^[j] r)).2 = ((lfsrNext P)^[j] r).getLsbD (agePlace P.lfsrTaps 6) := by
        unfold lfsrBit agePlace
        rw [ho]
        cases tapLeft P.lfsrTaps <;> rfl
      _ = r.getLsbD (agePlace P.lfsrTaps (6 - j)) := by
        rw [← getLsbD_lfsrNext_iterate P r (6 - j) j (by omega), hage]
  | fedBack => calc
      (lfsrBit P ((lfsrNext P)^[j] r)).2 = (lfsrNext P ((lfsrNext P)^[j] r)).getLsbD (agePlace P.lfsrTaps 0) := by
        rw [getLsbD_lfsrNext_zero, lfsrBit, ho]
      _ = ((lfsrNext P)^[7] r).getLsbD (agePlace P.lfsrTaps (6 - j)) := by
        rw [← Function.iterate_succ_apply' (lfsrNext P), ← getLsbD_lfsrNext_iterate P _ 0 (6 - j) (by omega),
          ← Function.iterate_add_apply, Nat.zero_add, show 6 - j + (j + 1) = 7 by omega]

/-- No two registers give the same byte: its first seven bits stand in one register, and steps are injective. -/
theorem prngNext_byte_injective (P : Params) : Function.Injective fun r => (prngNext P r).1 := by
  intro r r' h
  have hbit : ∀ j < 7, (lfsrBit P ((lfsrNext P)^[j] r)).2 = (lfsrBit P ((lfsrNext P)^[j] r')).2 := by
    intro j hj
    rw [← lfsrSteps_eq_iterate, ← lfsrSteps_eq_iterate, ← getLsbD_prngNext P r (by omega),
      ← getLsbD_prngNext P r' (by omega)]
    exact congrArg (BitVec.getLsbD · (bitPosition P.lfsrOrder j)) h
  refine (lfsrNext_injective P).iterate (emitDelay P.lfsrOut) (BitVec.eq_of_getLsbD_eq fun p hp => ?_)
  obtain ⟨j, hj, rfl⟩ := exists_agePlace_eq P.lfsrTaps hp
  rw [← lfsrBit_iterate_bit P r hj, ← lfsrBit_iterate_bit P r' hj, hbit j hj]

/-! ### The period of the keystream -/

/-- A byte takes eight steps. -/
theorem prngState_eq_iterate (P : Params) (r : Bits7) (n : Nat) : prngState P r n = ((lfsrNext P)^[8])^[n] r := by
  induction n with
  | zero => rfl
  | succ n ih => rw [Function.iterate_succ_apply', ← ih, ← lfsrSteps_eq_iterate, ← prngNext_reg, prngState]

/-- Eight steps at a time still pass through all 127 states, since 8 and 127 have no common divisor. -/
theorem minimalPeriod_lfsrNext_eight (P : Params) {r : Bits7} (hr : r ≠ 0) :
    Function.minimalPeriod (lfsrNext P)^[8] r = 127 := by
  rw [Function.minimalPeriod_iterate_eq_div_gcd (by decide), minimalPeriod_lfsrNext P hr]
  rfl

/-- Settles O26: the registers at the first 127 bytes are different and then come again, and a byte tells its register. -/
theorem keystreamPeriod : Obligations.KeystreamPeriod := by
  intro P seed
  have hperiod := minimalPeriod_lfsrNext_eight P (lfsrLoad_ne_zero P seed)
  refine ⟨fun n => ?_, fun m n hm hn h => ?_⟩
  · rw [keystream, keystream, prngState_eq_iterate, prngState_eq_iterate, Function.iterate_add_apply, ← hperiod,
      Function.iterate_minimalPeriod]
  · have hreg := prngNext_byte_injective P h
    rw [prngState_eq_iterate, prngState_eq_iterate] at hreg
    exact Function.iterate_injOn_Iio_minimalPeriod (hm.trans_eq hperiod.symm) (hn.trans_eq hperiod.symm) hreg

end Sys2Proof.Machine
end

section
/-! Proof of the statement about the statuses (spec/60_exceptions.md, R232): what a parse, a build and a composite of each
can end with. -/

namespace Sys2Proof.Machine

/-- A present buffer never gives NULL_POINTER (R150): no test of a packet has that status. -/
theorem parseBuffer_present_ne_nullPointer (P : Params) (chEn cfgEn : Bool) (buf : Bytes) :
    (parseBuffer P (some buf) chEn cfgEn).1 ≠ .nullPointer := by
  induction buf using parseBuffer_induction (P := P) (chEn := chEn) (cfgEn := cfgEn) with
  | empty =>
    show emptyBufStatus P ≠ .nullPointer
    unfold emptyBufStatus
    split <;> decide
  | packet h tail ih =>
    rw [parseBuffer_cons]
    cases hp : parsePacket P chEn cfgEn h tail with
    | fails st =>
      rintro rfl
      exact absurd (parsePacket_fails hp) (by decide)
    | passes ev rest =>
      by_cases hr : rest = []
      · simp [hr]
      · simpa [hr] using ih ev rest hp hr

theorem parseBuffer_status_mem (P : Params) (buf : Buffer) (chEn cfgEn : Bool) :
    (parseBuffer P buf chEn cfgEn).1 ∈ parseStatuses :=
  (parseBuffer_ok P buf chEn cfgEn).1

/-- A parse composite adds the failure of its decode step to the statuses of PARSE (R212). -/
theorem framedParse_status_mem (P : Params) (middle : Bytes → Bits7 → Bytes × Bits7) (frame : Buffer)
    (chEn cfgEn : Bool) (r : Bits7) :
    (framedParse P middle frame chEn cfgEn r).1.1 ∈ parseStatuses ∨
      (framedParse P middle frame chEn cfgEn r).1.1 = wrapperStatus P.errDecodeFail := by
  cases frame with
  | none => exact .inl (show Status.nullPointer ∈ parseStatuses by decide)
  | some f =>
    obtain ⟨-, h⟩ | ⟨-, h⟩ := framedParse_cases P middle f chEn cfgEn r <;> rw [h]
    · exact .inr rfl
    · exact .inl (parseBuffer_status_mem P _ chEn cfgEn)

theorem Built.PacketOrError.status_mem {b : Built} (h : b.PacketOrError) : b.status ∈ buildStatuses := by
  obtain ⟨hnone, -⟩ | ⟨-, hst, -⟩ := h
  · rw [hnone]
    decide
  · exact hst

/-- The intermediate buffer holds any packet, so that a build into it never overflows (R214). -/
theorem Built.RawPacketOrError.status_ne_bufferOverflow {P : Params} {b : Built}
    (h : b.RawPacketOrError P Config.rawBufCap) : b.status ≠ .bufferOverflow := by
  obtain ⟨_, _, -, rfl⟩ | ⟨-, hoverflow⟩ := h
  · nofun
  · exact hoverflow le_rfl

/-- A build composite has the statuses of its build, but for the overflow, and the failure of its encode step (R215). -/
theorem framedBuild_status_mem {P : Params} (middle : Bytes → Bits7 → Bytes × Bits7) {raw : Built} (cap : Nat)
    (r : Bits7) (hpacket : raw.PacketOrError) (hraw : raw.RawPacketOrError P Config.rawBufCap) :
    (framedBuild P middle raw cap r).1.status ∈ [Status.none, .nullPointer, .invalidSize] ∨
      (framedBuild P middle raw cap r).1.status = wrapperStatus P.errEncodeFail := by
  obtain ⟨-, h⟩ | ⟨-, -, h⟩ | ⟨-, -, h⟩ := framedBuild_cases P middle raw cap r <;> rw [h]
  · have hmem := hpacket.status_mem
    have hne := hraw.status_ne_bufferOverflow
    simp only [buildStatuses, List.mem_cons, List.not_mem_nil, or_false] at hmem ⊢
    tauto
  · exact .inr rfl
  · exact .inl List.mem_cons_self

/-- Settles O18: the results of an instruction are `instrOutcome`'s, those of a parse, a build, or a composite of one. -/
theorem operationsReturnOnlyTheirStatuses : Obligations.OperationsReturnOnlyTheirStatuses := by
  intro i s t st hexec hst
  obtain ⟨-, rfl⟩ := (exec_next_iff i s t).1 hexec
  replace hst : resultStatus (instrOutcome Config.params s.issued s.lfsr i).1 = some st := hst
  cases i with
  | parse =>
    obtain rfl := Option.some.inj hst
    exact parseBuffer_status_mem Config.params _ _ _
  | hdrOffsetArray | hdrChannelValuePairs | hdrConfig | hdrType3 | hdrVersion1 | hdrVersion2 | hdrVersion3 =>
    obtain rfl := Option.some.inj hst
    exact ⟨parseBuffer_status_mem Config.params _ _ _, parseBuffer_present_ne_nullPointer Config.params _ _ _⟩
  | buildOa =>
    obtain rfl := Option.some.inj hst
    exact (buildOa_packetOrError Config.params _ _ _).status_mem
  | buildCfg =>
    obtain rfl := Option.some.inj hst
    exact (buildCfg_packetOrError Config.params _ _ _).status_mem
  | cobsParse | randCobsParse =>
    obtain rfl := Option.some.inj hst
    exact framedParse_status_mem Config.params _ _ _ _ s.lfsr
  | cobsBuildOa | randCobsBuildOa =>
    obtain rfl := Option.some.inj hst
    exact framedBuild_status_mem _ _ s.lfsr (buildOa_packetOrError ..) (buildOa_rawPacketOrError ..)
  | cobsBuildCfg | randCobsBuildCfg =>
    obtain rfl := Option.some.inj hst
    exact framedBuild_status_mem _ _ s.lfsr (buildCfg_packetOrError ..) (buildCfg_rawPacketOrError ..)
  | cksum b | cobsEnc b | cobsDec b | randomize b => cases b <;> cases hst
  | prngInit | prngNext | cobsCodeDelimiter | cobsCodeRun | cobsCodeFullRun => cases hst

end Sys2Proof.Machine
end

section
/-! Proofs of the statements about reset (spec/70_reset_and_hazards.md, R260, R261): what stands in the machine before its
first step. -/

namespace Sys2Proof.Machine

/-- Settles O16: at reset there are no results to have a shape. -/
theorem resetResultsOk : Obligations.ResetResultsOk := rfl

/-- Settles O17: nothing is issued at reset, and no bytes decode to nothing. -/
theorem resetHoldsLfsrReset : Obligations.ResetHoldsLfsrReset :=
  ⟨rfl, rfl, rfl, step_of_decode_error rfl⟩

end Sys2Proof.Machine
end
